-- ==== Sys2Proof/Config.lean ====
section
/-! DEFINITION. The parameters of this chip revision (spec 00_scope.md R6, R7), and the types of their values. A claim proved with
them is a claim about this revision only (D22). The spec leaves no value open, so there is no free value here. -/

namespace Sys2Proof

/-- A range of numbers `first..last`, which includes both ends (R10). -/
structure NatRange where
  first : Nat
  last : Nat
deriving DecidableEq, Repr

/-- A number lies in a range (R10). -/
abbrev NatRange.has (r : NatRange) (n : Nat) : Prop := r.first ≤ n ∧ n ≤ r.last

/-- The order of the two bytes of a field, the domain of the parameter FIELD_ORDER (R6, R44; log 12). -/
inductive ByteOrder where
  | bigEndian
  | littleEndian
deriving DecidableEq, Repr

namespace Config

/-- FRAME_BYTES: exact length of an admitted frame (R6). -/
abbrev frameBytes : Nat := 24

/-- RAIL_COUNT: rail records per snapshot (R6). -/
abbrev railCount : Nat := 6

/-- GROUP_BYTES: bytes per rail group (R6). -/
abbrev groupBytes : Nat := 4

/-- FIELD_BITS: width of the voltage and of the current field (R6). -/
abbrev fieldBits : Nat := 16

/-- FIELD_ORDER: byte order of each 16-bit field (R6, R43, R44). -/
abbrev fieldOrder : ByteOrder := .bigEndian

/-- RAIL_INDEX_RANGE: legal rail indices, 0..5 (R6). -/
abbrev railIndexRange : NatRange := ⟨0, 5⟩

/-- PIN_RANGE: physical pin numbers, 1..6 (R6). -/
abbrev pinRange : NatRange := ⟨1, 6⟩

/-- CHIP_BUS: the I2C bus of the monitoring chip (R7, context). -/
abbrev chipBus : Nat := 4

/-- CHIP_ADDRESS: the device address of the chip (R7, context; its width is not in the source, N14). -/
abbrev chipAddress : Nat := 0x2B

/-- CHIP_REG_BASE: the chip register that frame byte 0 is read from (R7, R42). -/
abbrev chipRegBase : Nat := 0x80

/-- READ_LENGTH: bytes per transport read (R7). -/
abbrev readLength : Nat := 24

end Config

/-- A physical pin of the connector: a number in PIN_RANGE, which its type carries (R6, R30, R41). -/
structure Pin where
  number : Nat
  inRange : Config.pinRange.has number
deriving DecidableEq, Repr

namespace Config

/-- The shape of the pin-map table: one pin per logical rail (R24, R41). -/
abbrev PinMap := Vector Pin railCount

/-- PIN_MAP: logical rail g is on physical pin 6 - g. It is data, a lookup table, fixed when the block is
built (R6, R100, R101). UNVERIFIED against any board wiring (C1, I3, N12; log 15). -/
def pinMap : PinMap :=
  #v[⟨6, by decide⟩, ⟨5, by decide⟩, ⟨4, by decide⟩, ⟨3, by decide⟩, ⟨2, by decide⟩, ⟨1, by decide⟩]

end Config

end Sys2Proof
end

