-- ==== Sys2Proof/Word.lean ====
section
/-! DEFINITION. The words of the Register Decoder: bytes, field codes and rail indices, and the names of the two fields and of a
field's two bytes (spec 00_scope.md R8, R10; 10_state.md R27). Every value is unsigned. -/

namespace Sys2Proof

/-- A byte is 8 bits, bit 0 the least significant (R8). -/
abbrev Byte := BitVec 8

/-- A raw field code of FIELD_BITS bits, 0..65535, without a unit (R6, R27, D15). -/
abbrev Code := BitVec Config.fieldBits

/-- A logical rail index: the position of a group in the frame, one of RAIL_COUNT (R6, R12, R27). -/
abbrev RailIndex := Fin Config.railCount

/-- The two 16-bit fields of a group (R61). -/
inductive FieldKind where
  | voltage
  | current
deriving DecidableEq, Repr

/-- The two bytes of a field: bits 15..8 and bits 7..0 (R51). -/
inductive FieldHalf where
  | high
  | low
deriving DecidableEq, Repr

end Sys2Proof
end

