-- ==== Sys2Proof/Syntax.lean ====
section
/-! DEFINITION. The requests of the block: its whole operation set (spec 30_encoding.md R65, R67). -/

namespace Sys2Proof

/-- The bytes handed to DECODE, byte 0 first. A frame of any length may be presented; only one of 24 bytes is
decoded (R26, D6). -/
abbrev Frame := List Byte

/-- One constructor per row of spec/opcode_table.json. -/
inductive Instr where
  /-- DECODE, op 0x01: unpack a frame into a snapshot (R80). -/
  | decode (frame : Frame)
  /-- PINOF, op 0x02: the physical pin of a logical rail (R102). -/
  | pinof (g : RailIndex)
deriving DecidableEq, Repr

end Sys2Proof
end

