-- ==== Sys2Proof/WellFormed.lean ====
section
/-! DEFINITION. Which requests the REQ byte format can carry (spec 30_encoding.md R65). The abstract request of R33 has no
such bound: DECODE runs on a frame of any length (D6). -/

namespace Sys2Proof

/-- The largest value of the 8-bit `len` of REQ.DECODE (R65). -/
abbrev maxReqFrame : Nat := 255

/-- A request has a REQ encoding exactly when its frame length fits the 8-bit `len` (R65). A rail index is in
0..5 by its type. -/
def Instr.wf : Instr → Bool
  | .decode frame => decide (frame.length ≤ maxReqFrame)
  | .pinof _ => true

end Sys2Proof
end

