-- ==== Sys2Proof/Decode.lean ====
section
/-! DEFINITION. The request decoder, total on any byte string and rejecting by name, and the encoder
(spec 30_encoding.md R65, R67, R68, R70, R71). -/

namespace Sys2Proof

/-- Why a byte string is no request (R68, R126). Raised by `decodeRequest` alone, and always safe: the block gives
no response to such a string, and no claim about it can be proved. -/
inductive Reject where
  /-- No byte 0, so no opcode (R65; log 9). -/
  | noOpcode
  /-- The opcode is 0x00 or 0x03..0xFF (R67, R68). -/
  | reservedOpcode (op : Byte)
  /-- REQ.DECODE without its length byte 1 (R68). -/
  | missingLength
  /-- REQ.PINOF without its index byte 1 (R68). -/
  | missingIndex
  /-- The byte count differs from the total length that R65 gives (R68). -/
  | byteCount (declared actual : Nat)
  /-- REQ.PINOF with g in 6..255 (R68, D9). -/
  | indexOutOfRange (g : Byte)
deriving DecidableEq, Repr

/-- The two operations of the opcode map (R67). -/
inductive Opcode where
  | decode
  | pinof
deriving DecidableEq, Repr

/-- A row of the opcode map: the opcode byte under `mask` equals `pattern` (R67). -/
structure OpcodeRow where
  mask : Byte
  pattern : Byte
  opcode : Opcode
deriving DecidableEq, Repr

/-- The opcode map, as spec/opcode_table.json gives it (R67). The other 254 values are reserved. -/
def opcodeTable : List OpcodeRow :=
  [⟨0xFF, 0x01, .decode⟩, ⟨0xFF, 0x02, .pinof⟩]

/-- A row matches op[7:0] under its mask (R67). -/
def OpcodeRow.hits (op : Byte) (row : OpcodeRow) : Bool :=
  op &&& row.mask == row.pattern

/-- The operation of an opcode byte; none when the byte is reserved (R67). -/
def opcodeOf (op : Byte) : Option Opcode :=
  (opcodeTable.find? (OpcodeRow.hits op)).map OpcodeRow.opcode

/-- Bytes 1 and up of REQ.DECODE: `len`, then exactly `len` frame bytes (R65, R68, R70). -/
def decodeDecodeBody : List Byte → Except Reject Instr
  | [] => .error .missingLength
  | len :: frame =>
    if frame.length = len.toNat then .ok (.decode frame)
    else .error (.byteCount (2 + len.toNat) (2 + frame.length))

/-- The rail index with a given number; none outside RAIL_INDEX_RANGE (R6, R68, D9). -/
def railOfNumber (n : Nat) : Option RailIndex :=
  if h : Config.railIndexRange.has n then some ⟨n, Nat.lt_of_le_of_lt h.2 (by decide)⟩ else none

/-- Bytes 1 and up of REQ.PINOF: the rail index g, which is in RAIL_INDEX_RANGE, and nothing more (R65, R68, R70). -/
def decodePinofBody : List Byte → Except Reject Instr
  | [] => .error .missingIndex
  | g :: [] =>
    match railOfNumber g.toNat with
    | some rail => .ok (.pinof rail)
    | none => .error (.indexOutOfRange g)
  | _ :: more => .error (.byteCount 2 (2 + more.length))

/-- The request that a whole byte string stands for, or the reason it is refused (R65, R68, R70). A REQ.DECODE of a
length other than 24 is a legal request (R69). -/
def decodeRequest : List Byte → Except Reject Instr
  | [] => .error .noOpcode
  | op :: body =>
    match opcodeOf op with
    | some .decode => decodeDecodeBody body
    | some .pinof => decodePinofBody body
    | none => .error (.reservedOpcode op)

/-- The opcode byte of a request (R67). -/
def opcodeByte : Instr → Byte
  | .decode _ => 0x01
  | .pinof _ => 0x02

/-- The total length of a request, in bytes (R65). -/
def requestLength : Instr → Nat
  | .decode frame => 2 + frame.length
  | .pinof _ => 2

/-- The REQ bytes of a well-formed request, written from R65. -/
def encode : Instr → List Byte
  | .decode frame => 0x01 :: BitVec.ofNat 8 frame.length :: frame
  | .pinof g => [0x02, BitVec.ofNat 8 g.val]

/-! ### Words numbered as the opcode table numbers them -/

/-- The `n` lowest bytes of a number, the least significant first: bits 7..0 are byte 0, bits 15..8 are byte 1. -/
def littleBytes : Nat → Nat → List Byte
  | 0, _ => []
  | n + 1, w => BitVec.ofNat 8 w :: littleBytes n (w / 256)

/-- The total length that a request's bytes 0 and 1 declare (R70); for a reserved opcode just the opcode. -/
def declaredLength (op len : Byte) : Nat :=
  match opcodeOf op with
  | some .decode => 2 + len.toNat
  | some .pinof => 2
  | none => 1

/-- The request bytes whose bits are `w`: the `nbits` bits that the table gives, then bytes of zero up to the length that
bytes 0 and 1 declare. A `w` with bits set above that length keeps its own bytes, which the decoder refuses (log 19). -/
def tableBytes (nbits w : Nat) : List Byte :=
  let v := w % 2 ^ nbits
  let n := declaredLength (BitVec.ofNat 8 v) (BitVec.ofNat 8 (v / 256))
  if v < 2 ^ (8 * n) then littleBytes n v else littleBytes ((nbits + 7) / 8) v

/-- The request that the decoder reads from the bits `w` of a row of the opcode table. -/
def decodeTableWord (nbits w : Nat) : Option Instr :=
  (decodeRequest (tableBytes nbits w)).toOption

end Sys2Proof
end

