-- ==== Sys2Proof/Machine/State.lean ====
section
/-! DEFINITION. The values that cross the block's boundary, the state, the stops and the reset state
(spec 10_state.md R20 to R33; 60_exceptions.md R110, R123, R126; 70_reset_and_hazards.md R130, R131). -/

namespace Sys2Proof.Machine

/-- One rail record. The codes are raw: the names end in `_mv` and `_ma` in the spec, but no unit is attached
(R27, D15). -/
structure RailReading where
  railIndex : RailIndex
  voltageMv : Code
  currentMa : Code
deriving DecidableEq, Repr

/-- The ordered sequence of exactly RAIL_COUNT readings, index 0..5 (R6, R28). -/
abbrev Snapshot := Vector RailReading Config.railCount

/-- The invariant of a Snapshot: the reading at position g has rail index g (R28). -/
abbrev Snapshot.wf (snap : Snapshot) : Prop :=
  ∀ g : RailIndex, snap[g].railIndex = g

/-- The block's error type: one value, no payload (R30, D7). -/
inductive DecodeError where
  | wrongLength
deriving DecidableEq, Repr

/-- What the block answers a request with (R66). -/
inductive Response where
  /-- DECODE, Ok. -/
  | snapshot (snap : Snapshot)
  /-- DECODE, error: no Snapshot and no part of one (R81, R110). -/
  | error (e : DecodeError)
  /-- PINOF, Ok. -/
  | pin (p : Pin)
deriving DecidableEq, Repr

/-- One interaction of the host with the block (R123; log 1, log 7, log 10). -/
inductive HostInput where
  /-- An abstract request (R33, D4): a frame may have any length, above 255 too (D6). -/
  | call (i : Instr)
  /-- A request as a REQ byte string, handed over whole (R65, R49). -/
  | request (bytes : List Byte)
  /-- A request that a reset interrupts before its response (R131): owed nothing. -/
  | interrupted (bytes : List Byte)
  /-- The reset event (R130): owed nothing. -/
  | reset
deriving DecidableEq, Repr

/-- Why the machine stops with a fault. -/
inductive Fault where
  /-- Raised by `frameByte` for an offset outside 0..len(frame)-1, where FB holds no byte (R40). Safe: the run
  stops. DECODE reads the twelve fields only after its length check, so no request reaches it (log 11). -/
  | absentFrameByte (offset : Nat)
deriving DecidableEq, Repr

/-- Why the machine gives a request no meaning. -/
inductive Refusal where
  /-- Raised by an arm of `exec` for an instruction without a meaning; no arm does so. Safe. -/
  | notModelled (mnemonic : String)
  /-- Raised by `step` when `decodeRequest` rejects the presented byte string: a reserved opcode, a rail index
  above 5, or a wrong byte count (R68, R126). Safe: no response, and the run ends there. -/
  | rejected (why : Reject)
deriving DecidableEq, Repr

/-- The state. The block keeps nothing from one request to the next but its constant table (R20, R24). -/
structure State where
  /-- PIN_MAP, the block's only stored datum, which no request writes (R24, R101; log 3). -/
  pinMap : Config.PinMap
  /-- The model's own field: the host interactions not yet served, oldest first (R123; log 1). -/
  inputs : List HostInput
  /-- The model's own field: the responses delivered so far, oldest first. It belongs to the receiver (R29,
  R137); the block never reads it (log 2). -/
  responses : List Response
deriving DecidableEq, Repr

/-- The machine right after reset: PIN_MAP as built, no response owed (R32, R130). Nothing is presented and
nothing was delivered (log 1, log 2). -/
def State.reset : State where
  pinMap := Config.pinMap
  inputs := []
  responses := []

end Sys2Proof.Machine
end

