-- ==== Sys2Proof/Machine/Operands.lean ====
section
/-! DEFINITION. The operand forms: where each field of a frame lies, and the pin-table entry that a rail index selects
(spec 20_memory.md R47, R48; 30_encoding.md R61; 41_pinmap.md R100). -/

namespace Sys2Proof.Machine

/-- The frame offset of group g: 4g (R61, R82). -/
def groupOffset (g : RailIndex) : Nat := Config.groupBytes * g.val

/-- The offset of a field within its group: voltage at 0, current after one field, at 2 (R6, R61). -/
def fieldShift : FieldKind → Nat
  | .voltage => 0
  | .current => Config.fieldBits / 8

/-- The frame offset of a field: 4g for the voltage, 4g + 2 for the current (R48). -/
def fieldOffset (g : RailIndex) (k : FieldKind) : Nat := groupOffset g + fieldShift k

/-- The offset of a byte within its field: the more significant byte is the lower one (R43, R51). -/
def halfShift : FieldHalf → Nat
  | .high => 0
  | .low => 1

/-- The length check of DECODE (R81). -/
def admitted (frame : Frame) : Bool := frame.length == Config.frameBytes

/-- PIN_MAP[g] (R41, R100). -/
def pinLookup (table : Config.PinMap) (g : RailIndex) : Pin := table[g]

end Sys2Proof.Machine
end

