-- ==== Sys2Proof/Machine/Ops.lean ====
section
/-! DEFINITION. The named operations: reading the frame, assembling a field, reading a group and a snapshot, delivering a
response, raising WrongLength, and the reset event. -/

namespace Sys2Proof.Machine

/-- frame[i]: the byte at offset i of FB, which exists for 0 ≤ i < len(frame) only (R9, R40). -/
def frameByte (frame : Frame) (i : Nat) : Except Fault Byte :=
  match frame[i]? with
  | some b => .ok b
  | none => .error (.absentFrameByte i)

/-- A 16-bit field from its two bytes in frame order. With FIELD_ORDER big-endian the first supplies bits 15..8 and
the second bits 7..0 (R8, R43, R91). -/
def assembleField (order : ByteOrder) (first second : Byte) : Code :=
  match order with
  | .bigEndian => first ++ second
  | .littleEndian => second ++ first

/-- MemRead(a, 2), the block's only access (R9, R43, R48). -/
def memRead16 (frame : Frame) (a : Nat) : Except Fault Code := do
  let first ← frameByte frame a
  let second ← frameByte frame (a + 1)
  return assembleField Config.fieldOrder first second

/-- The reading of group g: rail index g, and its two fields unconverted (R83, R84, R85, R86). -/
def readGroup (frame : Frame) (g : RailIndex) : Except Fault RailReading := do
  let v ← memRead16 frame (fieldOffset g .voltage)
  let c ← memRead16 frame (fieldOffset g .current)
  return { railIndex := g, voltageMv := v, currentMa := c }

/-- The six readings in logical index order (R82, R85). -/
def readSnapshot (frame : Frame) : Except Fault Snapshot := do
  let r0 ← readGroup frame 0
  let r1 ← readGroup frame 1
  let r2 ← readGroup frame 2
  let r3 ← readGroup frame 3
  let r4 ← readGroup frame 4
  let r5 ← readGroup frame 5
  return #v[r0, r1, r2, r3, r4, r5]

/-- Answer the request being served. A request's only effect is its response (R33, R50). -/
def deliver (r : Response) (s : State) : State := { s with responses := s.responses ++ [r] }

/-- Taking the block's one exception: no trap, nothing saved, no mode; the error is returned as the response to the
request that caused it (R110, R116). There is nothing to return from (R118). -/
def raiseError (e : DecodeError) (s : State) : State := deliver (.error e) s

/-- The reset event. There is no state to reset and PIN_MAP keeps its value; what was delivered belongs to its
receiver, and nothing is owed (R130, R131, R137; log 6). -/
def resetEvent (s : State) : State := s

end Sys2Proof.Machine
end

