-- ==== Sys2Proof/Machine/FrameDecode.lean ====
section
/-! DEFINITION. The family REQ.DECODE (spec 40_decode.md). -/

namespace Sys2Proof.Machine

/-- DECODE (R80): WrongLength exactly when the frame has not 24 bytes (R81), else the Snapshot of its six groups
(R82 to R85). No other effect (R89). -/
def execDecode (frame : Frame) (s : State) : Host.Outcome State Fault Refusal :=
  if admitted frame then
    match readSnapshot frame with
    | .ok snap => .next (deliver (.snapshot snap) s)
    | .error f => .fault f
  else .next (raiseError .wrongLength s)

end Sys2Proof.Machine
end

