-- ==== Sys2Proof/Machine/PinMap.lean ====
section
/-! DEFINITION. The family REQ.PINOF, and the pin table read backwards (spec 41_pinmap.md). -/

namespace Sys2Proof.Machine

/-- PINOF (R102): the response is PIN_MAP[g]. It reads no frame and raises no error (R111). -/
def execPinof (g : RailIndex) (s : State) : Host.Outcome State Fault Refusal :=
  .next (deliver (.pin (pinLookup s.pinMap g)) s)

/-- The logical rail whose pin is `p`, found in the table; with this revision's table it is rail 6 - p (R104). -/
def railOfPin (table : Config.PinMap) (p : Pin) : Option RailIndex :=
  (List.finRange Config.railCount).find? (fun g => pinLookup table g == p)

end Sys2Proof.Machine
end

