-- ==== Sys2Proof/Machine/Dispatch.lean ====
section
/-! DEFINITION. One arm per instruction, each a direct call of its meaning. -/

namespace Sys2Proof.Machine

def exec (i : Instr) (s : State) : Host.Outcome State Fault Refusal :=
  match i with
  | .decode frame => Sys2Proof.Machine.execDecode frame s
  | .pinof g => Sys2Proof.Machine.execPinof g s

end Sys2Proof.Machine
end

