-- ==== Sys2Proof/Machine/Fetch.lean ====
section
/-! DEFINITION. What the next step serves: the block fetches no instructions (spec 10_state.md R22); it is handed one host
interaction at a time (60_exceptions.md R123). -/

namespace Sys2Proof.Machine

/-- What a step has to do. The state in it is the one after the interaction was taken. -/
inductive Fetched where
  /-- Nothing is presented: the block waits (R114, R125; log 4). -/
  | idle
  /-- An interaction that asks for no response (R130, R131). -/
  | silent (s : State)
  /-- An admitted request. -/
  | run (i : Instr) (s : State)
  /-- A byte string that is no request (R126). -/
  | reject (why : Reject)
deriving DecidableEq, Repr

/-- Take one interaction. A refusal is decided before any operation runs (R115). -/
def serve (input : HostInput) (s : State) : Fetched :=
  match input with
  | .call i => .run i s
  | .request bytes =>
    match decodeRequest bytes with
    | .ok i => .run i s
    | .error why => .reject why
  | .interrupted _ => .silent (resetEvent s)
  | .reset => .silent (resetEvent s)

/-- The oldest interaction not yet served; requests are served in the order they were issued (R53, R123). -/
def fetch (s : State) : Fetched :=
  match s.inputs with
  | [] => .idle
  | input :: rest => serve input { s with inputs := rest }

/-- Present one interaction as the next to be served. -/
def present (input : HostInput) (s : State) : State := { s with inputs := input :: s.inputs }

end Sys2Proof.Machine
end

