-- ==== Sys2Proof/Machine/Step.lean ====
section
/-! DEFINITION. One step: one host interaction, served whole (spec 10_state.md R33; 20_memory.md R49). -/

namespace Sys2Proof.Machine

/-- One step of the machine. An idle step changes nothing (log 4); a refused request answers nothing (R126). -/
def step (s : State) : Host.Outcome State Fault Refusal :=
  match fetch s with
  | .idle => .next s
  | .silent t => .next t
  | .run i t => exec i t
  | .reject why => .refused (.rejected why)

/-- `s` with the request of an opcode-table word presented, so that the next step serves exactly it (log 5, log 19). -/
def State.withFetchWord (s : State) (nbits w : Nat) : State :=
  present (.request (tableBytes nbits w)) s

end Sys2Proof.Machine
end

