-- ==== Sys2Proof/Machine/Flags.lean ====
section
/-! DEFINITION. The response status. The block has no flag that persists (spec 10_state.md R23): the status is part of the
response (R66, R89, D24). -/

namespace Sys2Proof.Machine

/-- Status of an Ok response (R66). -/
def statusOk : Byte := 0x00

/-- Status of WrongLength (R66, R110). -/
def statusWrongLength : Byte := 0x01

/-- The code of an error (R110). -/
def errorCode : DecodeError → Byte
  | .wrongLength => statusWrongLength

/-- The status byte of a response (R66, R89). -/
def status : Response → Byte
  | .snapshot _ => statusOk
  | .error e => errorCode e
  | .pin _ => statusOk

end Sys2Proof.Machine
end

