-- ==== Sys2Proof/Machine/Response.lean ====
section
/-! DEFINITION. The RSP byte format: the writer, and the reader that a host needs the request for
(spec 30_encoding.md R66, R70). -/

namespace Sys2Proof.Machine

/-- A 16-bit value as two bytes, bits 15..8 first (R66, D5). -/
def codeBytes (c : Code) : List Byte := [c.extractLsb' 8 8, c.extractLsb' 0 8]

/-- The five bytes of record g: `g`, V[15:8], V[7:0], C[15:8], C[7:0] (R66). -/
def recordBytes (g : RailIndex) (r : RailReading) : List Byte :=
  BitVec.ofNat 8 g.val :: (codeBytes r.voltageMv ++ codeBytes r.currentMa)

/-- The bytes after the status (R66). -/
def responseBody : Response → List Byte
  | .snapshot snap => (List.finRange Config.railCount).flatMap (fun g => recordBytes g snap[g])
  | .error _ => []
  | .pin p => [BitVec.ofNat 8 p.number]

/-- The RSP bytes of a response (R66). -/
def encodeResponse (r : Response) : List Byte := status r :: responseBody r

/-- The length of a response, from the request's operation and the status; none for a status that is never produced
(R66, R70). -/
def responseLength (op : Opcode) (st : Byte) : Option Nat :=
  match op with
  | .decode => if st = statusOk then some 31 else if st = statusWrongLength then some 1 else none
  | .pinof => if st = statusOk then some 2 else none

/-- The pin with a given number; none outside PIN_RANGE (R6). -/
def pinOfNumber (n : Nat) : Option Pin :=
  if h : Config.pinRange.has n then some ⟨n, h⟩ else none

/-- Record g at the head of a byte list, and the bytes after it (R66). -/
def readRecord (g : RailIndex) : List Byte → Option (RailReading × List Byte)
  | i :: vh :: vl :: ch :: cl :: rest =>
    if i = BitVec.ofNat 8 g.val then
      some ({ railIndex := g, voltageMv := vh ++ vl, currentMa := ch ++ cl }, rest)
    else none
  | _ => none

/-- The six records of RSP.SNAPSHOT and nothing after them (R66). -/
def readRecords (bytes : List Byte) : Option Snapshot := do
  let (r0, b0) ← readRecord 0 bytes
  let (r1, b1) ← readRecord 1 b0
  let (r2, b2) ← readRecord 2 b1
  let (r3, b3) ← readRecord 3 b2
  let (r4, b4) ← readRecord 4 b3
  let (r5, b5) ← readRecord 5 b4
  if b5.isEmpty then some #v[r0, r1, r2, r3, r4, r5] else none

/-- The bytes after the status, read for the operation that was requested (R66). -/
def readBody (op : Opcode) (st : Byte) (body : List Byte) : Option Response :=
  match op with
  | .decode =>
    if st = statusOk then (readRecords body).map .snapshot
    else if st = statusWrongLength && body.isEmpty then some (.error .wrongLength)
    else none
  | .pinof =>
    match body with
    | [n] => if st = statusOk then (pinOfNumber n.toNat).map .pin else none
    | _ => none

/-- The response that RSP bytes stand for, given the operation that was requested (R66, R70; log 18). -/
def decodeResponse (op : Opcode) : List Byte → Option Response
  | [] => none
  | st :: body => readBody op st body

end Sys2Proof.Machine
end

