-- ==== Sys2Proof/Machine/Assembler.lean ====
section
/-! DEFINITION. The assembly syntax: one request a line, and the text of a response (spec 30_encoding.md R72, R73). A text is a
list of characters. -/

namespace Sys2Proof.Machine

/-- One item of a DECODE line: `bb` is one byte, `bb*k` is k copies of it (R72). -/
structure AsmItem where
  byte : Byte
  count : Nat
deriving DecidableEq, Repr

/-- A line of the syntax (R72). -/
inductive AsmLine where
  | decode (items : List AsmItem)
  | pinof (g : RailIndex)
deriving DecidableEq, Repr

/-- The bytes that an item lists. -/
def itemBytes (item : AsmItem) : List Byte := List.replicate item.count item.byte

/-- The one request that a line stands for (R73). -/
def lineInstr : AsmLine → Instr
  | .decode items => .decode (items.flatMap itemBytes)
  | .pinof g => .pinof g

/-- A line without its comment: the text before `;` (R72). -/
def dropComment (text : List Char) : List Char := text.takeWhile (fun c => c != ';')

/-- A line without the response written after `=>` (R72). -/
def dropResult : List Char → List Char
  | [] => []
  | '=' :: '>' :: _ => []
  | c :: rest => c :: dropResult rest

/-- The words of a text that spaces separate; `word` is the word being read. -/
def splitWords (word : List Char) : List Char → List (List Char)
  | [] => if word.isEmpty then [] else [word]
  | c :: rest =>
    if c = ' ' then
      if word.isEmpty then splitWords [] rest else word :: splitWords [] rest
    else splitWords (word ++ [c]) rest

/-- The value of a decimal digit. -/
def decimalDigit (c : Char) : Option Nat :=
  if 48 ≤ c.toNat ∧ c.toNat ≤ 57 then some (c.toNat - 48) else none

/-- The value of a hexadecimal digit, capital or small (log 17). -/
def hexDigit (c : Char) : Option Nat :=
  if 48 ≤ c.toNat ∧ c.toNat ≤ 57 then some (c.toNat - 48)
  else if 65 ≤ c.toNat ∧ c.toNat ≤ 70 then some (c.toNat - 55)
  else if 97 ≤ c.toNat ∧ c.toNat ≤ 102 then some (c.toNat - 87)
  else none

/-- Decimal digits read onto a value. DESIGN CHOICE: leading zeros add nothing and are accepted (log 17). -/
def decimalFrom (value : Nat) : List Char → Option Nat
  | [] => some value
  | c :: rest =>
    match decimalDigit c with
    | some d => decimalFrom (10 * value + d) rest
    | none => none

/-- A decimal number of one digit or more. R72 says only 'g decimal 0..5' and 'k copies', so DESIGN CHOICE: it may have
leading zeros (PINOF 05, 00*024), and it may be zero, so that `bb*0` is a legal word (log 17). -/
def decimal : List Char → Option Nat
  | [] => none
  | digits => decimalFrom 0 digits

/-- A two-digit hexadecimal byte (R72). -/
def hexByte (a b : Char) : Option Byte :=
  match hexDigit a, hexDigit b with
  | some h, some l => some (BitVec.ofNat 8 (16 * h + l))
  | _, _ => none

/-- A word of a DECODE line: `bb` or `bb*k` (R72). DESIGN CHOICE: k may be zero, an empty run that lists no byte (log 17). -/
def parseItem : List Char → Option AsmItem
  | [a, b] => (hexByte a b).map (fun byte => { byte := byte, count := 1 })
  | a :: b :: '*' :: digits =>
    match hexByte a b, decimal digits with
    | some byte, some k => some { byte := byte, count := k }
    | _, _ => none
  | _ => none

/-- The items of a DECODE line. -/
def parseItems : List (List Char) → Option (List AsmItem)
  | [] => some []
  | word :: rest =>
    match parseItem word, parseItems rest with
    | some item, some items => some (item :: items)
    | _, _ => none

/-- The rail index of a PINOF line: g decimal, 0..5 (R72). DESIGN CHOICE: with leading zeros or without (log 17). -/
def parseIndex (word : List Char) : Option RailIndex :=
  match decimal word with
  | some n => railOfNumber n
  | none => none

/-- The name DECODE as it is written in a line. -/
def decodeName : List Char := ['D', 'E', 'C', 'O', 'D', 'E']

/-- The name PINOF as it is written in a line. -/
def pinofName : List Char := ['P', 'I', 'N', 'O', 'F']

/-- The line that a list of words stands for. -/
def parseWords : List (List Char) → Option AsmLine
  | [] => none
  | name :: args =>
    if name = decodeName then (parseItems args).map .decode
    else if name = pinofName then
      match args with
      | [word] => (parseIndex word).map .pinof
      | _ => none
    else none

/-- The line that a text stands for, its comment and its response left aside (R72). -/
def parseLine (text : List Char) : Option AsmLine :=
  parseWords (splitWords [] (dropResult (dropComment text)))

/-- The REQ bytes of a line; none where n is above 255 (R72). -/
def assembleLine (line : AsmLine) : Option (List Byte) :=
  if (lineInstr line).wf then some (encode (lineInstr line)) else none

/-- The REQ bytes of a text line (R72). -/
def assemble (text : List Char) : Option (List Byte) :=
  (parseLine text).bind assembleLine

/-- The capital hexadecimal digit of a number below 16. -/
def hexChar (n : Nat) : Char :=
  if n < 10 then Char.ofNat (48 + n) else Char.ofNat (55 + n)

/-- A byte as a word: a space, then two hexadecimal digits. -/
def printByte (b : Byte) : List Char := [' ', hexChar (b.toNat / 16), hexChar (b.toNat % 16)]

/-- The line of a request, every byte written out (R72). -/
def printRequest : Instr → List Char
  | .decode frame => decodeName ++ frame.flatMap printByte
  | .pinof g => pinofName ++ [' ', Char.ofNat (48 + g.val)]

/-- A reading as `(V,C)`, both decimal (R72). -/
def printReading (r : RailReading) : List Char :=
  ['('] ++ Nat.toDigits 10 r.voltageMv.toNat ++ [','] ++ Nat.toDigits 10 r.currentMa.toNat ++ [')']

/-- The text of a response: `OK [...]` in rail order, `WrongLength`, or `PIN p` (R72). -/
def printResponse : Response → List Char
  | .snapshot snap =>
    ['O', 'K', ' ', '['] ++ List.intercalate [',', ' '] (snap.toList.map printReading) ++ [']']
  | .error .wrongLength => ['W', 'r', 'o', 'n', 'g', 'L', 'e', 'n', 'g', 't', 'h']
  | .pin p => ['P', 'I', 'N', ' '] ++ Nat.toDigits 10 p.number

end Sys2Proof.Machine
end

