-- ==== Sys2Proof/Machine/FrameLayout.lean ====
section
/-! DEFINITION. The layout FRAME24 seen as a whole: the wide views of a frame, the address map of its offsets, and the frame
that carries given readings (spec 20_memory.md R46, R48, R51; 30_encoding.md R61). -/

namespace Sys2Proof.Machine

/-- The `n` bytes from offset `a` on, in frame order; each must exist in FB (R9, R40). -/
def memReadBytes (frame : Frame) (a : Nat) : Nat → Except Fault (List Byte)
  | 0 => .ok []
  | n + 1 => do
    let b ← frameByte frame a
    let rest ← memReadBytes frame (a + 1) n
    return b :: rest

/-- A byte list as one number, the first byte the most significant (R9, R43). -/
def bigEndianNat (bytes : List Byte) : Nat :=
  bytes.foldl (fun acc b => 256 * acc + b.toNat) 0

/-- MemRead(a, n) for any width (R9). The block itself uses only n = 2, which is `memRead16`. -/
def memRead (frame : Frame) (a n : Nat) : Except Fault (BitVec (8 * n)) := do
  let bytes ← memReadBytes frame a n
  return BitVec.ofNat (8 * n) (bigEndianNat bytes)

/-- Group g as one 32-bit big-endian word W (R46). -/
def groupWord (frame : Frame) (g : RailIndex) : Except Fault (BitVec (8 * Config.groupBytes)) :=
  memRead frame (groupOffset g) Config.groupBytes

/-- The whole frame as one 192-bit big-endian number F, frame[0] in F[191:184] (R46, R61). -/
def frameNumber (frame : Frame) : Except Fault (BitVec (8 * Config.frameBytes)) :=
  memRead frame 0 Config.frameBytes

/-- The lowest bit of a field in F: Vg = F[191-32g : 176-32g], Cg = F[175-32g : 160-32g] (R61). -/
def fieldLowBit (g : RailIndex) : FieldKind → Nat
  | .voltage => 176 - 32 * g.val
  | .current => 160 - 32 * g.val

/-- A field cut out of F (R61). -/
def fieldOfNumber (F : BitVec (8 * Config.frameBytes)) (g : RailIndex) (k : FieldKind) : Code :=
  F.extractLsb' (fieldLowBit g k) Config.fieldBits

/-- A field of a snapshot. -/
def fieldOf (snap : Snapshot) (g : RailIndex) : FieldKind → Code
  | .voltage => snap[g].voltageMv
  | .current => snap[g].currentMa

/-- The half of a field that one byte supplies (R43). -/
def halfOf (c : Code) : FieldHalf → Byte
  | .high => c.extractLsb' 8 8
  | .low => c.extractLsb' 0 8

/-- Where a frame byte goes: rail, field, half (R51). -/
structure FieldPlace where
  rail : RailIndex
  kind : FieldKind
  half : FieldHalf
deriving DecidableEq, Repr

/-- The row of the address map that assigns frame offset `i` (R51). Every one of the 24 offsets has one (R52). -/
def placeOf (i : Fin Config.frameBytes) : FieldPlace where
  rail := ⟨i.val / Config.groupBytes, Nat.div_lt_of_lt_mul i.isLt⟩
  kind := if i.val % Config.groupBytes < Config.fieldBits / 8 then .voltage else .current
  half := if i.val % 2 = 0 then .high else .low

/-- The frame offset of a place (R51). -/
def offsetOf (p : FieldPlace) : Nat := fieldOffset p.rail p.kind + halfShift p.half

/-- The offsets of the twelve field reads of an admitted DECODE (R48). -/
def accessOffsets : List Nat :=
  (List.finRange Config.railCount).flatMap (fun g => [fieldOffset g .voltage, fieldOffset g .current])

/-- The frame that carries given codes, laid out by FRAME24 (R61). -/
def layoutFrame (field : RailIndex → FieldKind → Code) : Frame :=
  (List.finRange Config.railCount).flatMap fun g =>
    [halfOf (field g .voltage) .high, halfOf (field g .voltage) .low,
      halfOf (field g .current) .high, halfOf (field g .current) .low]

end Sys2Proof.Machine
end

