-- ==== Sys2Proof/Machine/System.lean ====
section
/-! DEFINITION. Where a frame comes from in the system: the chip's register window, the transport read, and what the host
presents to the block (spec 00_scope.md R4, R7; 20_memory.md R42, R49, R51; 60_exceptions.md R112, R121). Context: nothing here
is part of the block's own operation. -/

namespace Sys2Proof.Machine

/-- One transport read: which registers of which device (R7, R42). -/
structure BusRead where
  bus : Nat
  address : Nat
  register : Nat
  length : Nat
deriving DecidableEq, Repr

/-- The read that the system's frame is the result of (R7, R42). -/
def sensorRead : BusRead where
  bus := Config.chipBus
  address := Config.chipAddress
  register := Config.chipRegBase
  length := Config.readLength

/-- The chip register whose content is frame byte i (R42, R51). -/
def chipRegister (i : Nat) : Nat := Config.chipRegBase + i

/-- What a successful read returns: exactly `length` bytes, contiguous from `register`, of a device whose register
contents are `chip` (R42, R49; log 20). -/
def transportRead (chip : Nat → Byte) (read : BusRead) : Frame :=
  (List.range read.length).map (fun i => chip (read.register + i))

/-- The kinds of failed read. They belong to the transport; the block never raises one (R112). -/
inductive TransportError where
  | deviceUnavailable
  | unsupportedOperation
  | transactionFailed
  | permissionDenied
deriving DecidableEq, Repr

/-- What the system's host presents after a read: DECODE of the frame if the read succeeded, nothing otherwise
(R112, R49). -/
def hostPresents : Except TransportError Frame → List HostInput
  | .ok frame => [.call (.decode frame)]
  | .error _ => []

/-- What can end a poll in the system: a failed read, or the block's error (R112, R113, R124). -/
inductive PollError where
  | transport (e : TransportError)
  | decode (e : DecodeError)
deriving DecidableEq, Repr

/-- The system's policy: every error but TransactionFailed is fatal to the host, WrongLength included (R124, C5). The
block is the same either way. -/
def fatalToHost : PollError → Bool
  | .transport .deviceUnavailable => true
  | .transport .unsupportedOperation => true
  | .transport .transactionFailed => false
  | .transport .permissionDenied => true
  | .decode .wrongLength => true

/-- The address map's row of frame offset `i`: chip register, place, physical pin (R51). -/
structure AddressMapRow where
  register : Nat
  place : FieldPlace
  pin : Pin
deriving DecidableEq, Repr

/-- The address map (R51). The pin column is metadata from PIN_MAP. -/
def addressMap (table : Config.PinMap) (i : Fin Config.frameBytes) : AddressMapRow where
  register := chipRegister i.val
  place := placeOf i
  pin := pinLookup table (placeOf i).rail

end Sys2Proof.Machine
end

