-- ==== Sys2Proof/Safety.lean ====
section
/-! DEFINITION. What counts as a sound state and a safe run of the Register Decoder, in the terms the claims use. -/

namespace Sys2Proof.Machine

/-- A response is sound when its Snapshot, if it has one, lists reading g at position g (R28). -/
def Response.wf : Response → Prop
  | .snapshot snap => Snapshot.wf snap
  | .error _ => True
  | .pin _ => True

/-- The invariant: the pin table is this revision's constant (R24, R101), and every Snapshot delivered so far is in
logical index order (R28, R29). -/
def Inv (s : State) : Prop :=
  s.pinMap = Config.pinMap ∧ ∀ r ∈ s.responses, Response.wf r

/-- The refusal mark of an outcome (R126; log 8). -/
def refusalMark : Host.Outcome State Fault Refusal → Option Refusal
  | .next _ => none
  | .fault _ => none
  | .refused why => some why

/-- `k` steps of the machine, ending at the first refusal or fault: the host's own `run` of `core`. -/
def run (k : Nat) (s : State) : Host.Outcome State Fault Refusal := Host.Core.run Sys2Proof.core k s

/-- A run of `k` steps is safe when it ends in a state: no step of it was refused or faulted (R126). -/
def SafeRun (k : Nat) (s : State) : Prop := ∃ t, run k s = .next t

/-- The outcome of a run as R126 and the programs of 95_test_vectors.md speak of it: the responses delivered up to
its end, and the refusal mark. -/
structure Transcript where
  responses : List Response
  mark : Option Refusal
deriving DecidableEq, Repr

/-- The transcript of `k` steps. A refusal ends it, and its mark stays for the rest of the run. -/
def transcript : Nat → State → Transcript
  | 0, s => { responses := s.responses, mark := none }
  | k + 1, s =>
    match step s with
    | .next t => transcript k t
    | .fault _ => { responses := s.responses, mark := none }
    | .refused why => { responses := s.responses, mark := some why }

end Sys2Proof.Machine
end

