-- ==== Sys2Proof/Certificates/Slice0/Obligations.lean ====
section
/-! DEFINITION. The statements for the provers, from the numbered rules of spec/. A statement about what an instruction answers
has `exec … = .next …` as its conclusion, so it says that the instruction completes; the next state is written out, so it is
the whole frame too: PIN_MAP and the inputs stand, and exactly one response is added. `frame.getD i 0` is frame[i] wherever the
offset exists. -/

open Sys2Proof Sys2Proof.Machine

/-! ### DECODE (spec 40_decode.md) -/

/-- R83, R84, R62: a 24-byte frame is answered by a Snapshot whose codes are 256 times the first byte plus the second of the
two bytes at 4g and at 4g+2, with rail index g. -/
def Obligations.DecodeReportsEachGroup : Prop :=
  ∀ (frame : Frame) (s : State), frame.length = 24 →
    ∃ snap : Snapshot,
      exec (.decode frame) s = .next { s with responses := s.responses ++ [.snapshot snap] } ∧
      ∀ g : RailIndex,
        snap[g].railIndex = g ∧
        snap[g].voltageMv.toNat =
          (frame.getD (4 * g.val) 0).toNat * 256 + (frame.getD (4 * g.val + 1) 0).toNat ∧
        snap[g].currentMa.toNat =
          (frame.getD (4 * g.val + 2) 0).toNat * 256 + (frame.getD (4 * g.val + 3) 0).toNat

/-- R81: any other length, shorter or longer or a multiple, is answered by WrongLength and nothing else. -/
def Obligations.DecodeWrongLength : Prop :=
  ∀ (frame : Frame) (s : State), frame.length ≠ 24 →
    exec (.decode frame) s = .next { s with responses := s.responses ++ [.error .wrongLength] }

/-- R85, R103: the readings come in logical index order, in byte order, and neither they nor the order depend on PIN_MAP; the
pin of reading g is the table's entry for its rail index. -/
def Obligations.DecodeOrderIgnoresPinMap : Prop :=
  ∀ (frame : Frame) (s : State) (table : Config.PinMap), frame.length = 24 →
    ∃ snap : Snapshot,
      exec (.decode frame) s = .next { s with responses := s.responses ++ [.snapshot snap] } ∧
      exec (.decode frame) { s with pinMap := table } =
        .next { s with pinMap := table, responses := s.responses ++ [.snapshot snap] } ∧
      ∀ g : RailIndex,
        snap[g].railIndex = g ∧
        snap[g].voltageMv = frame.getD (4 * g.val) 0 ++ frame.getD (4 * g.val + 1) 0 ∧
        snap[g].currentMa = frame.getD (4 * g.val + 2) 0 ++ frame.getD (4 * g.val + 3) 0 ∧
        pinLookup table snap[g].railIndex = pinLookup table g

/-- R86: whatever twelve 16-bit codes a frame carries, DECODE reports exactly those, and its only error condition is the length. -/
def Obligations.DecodeReportsEveryCode : Prop :=
  (∀ (field : RailIndex → FieldKind → Code) (s : State),
    ∃ snap : Snapshot,
      exec (.decode (layoutFrame field)) s = .next { s with responses := s.responses ++ [.snapshot snap] } ∧
      ∀ (g : RailIndex) (k : FieldKind), snap[g].railIndex = g ∧ fieldOf snap g k = field g k) ∧
  ∀ (frame : Frame) (s : State),
    (∃ e, exec (.decode frame) s = .next { s with responses := s.responses ++ [.error e] }) ↔
      frame.length ≠ 24

/-- From R48, R52, R82: a Snapshot determines its frame; no byte of the frame is dropped, and none is read into two fields. -/
def Obligations.SnapshotDeterminesFrame : Prop :=
  ∀ (frame : Frame) (s : State), frame.length = 24 →
    ∃ snap : Snapshot,
      exec (.decode frame) s = .next { s with responses := s.responses ++ [.snapshot snap] } ∧
      layoutFrame (fieldOf snap) = frame

/-- R87: a frame has one response, in every state whatsoever, so after any requests. -/
def Obligations.DecodeIsAFunctionOfItsFrame : Prop :=
  ∀ frame : Frame, ∃ r : Response, ∀ s : State,
    exec (.decode frame) s = .next { s with responses := s.responses ++ [r] }

/-- From R82, R83, R84 (R88 is marked derived in the spec): reading g is the same for two frames that agree on bytes
4g..4g+3. -/
def Obligations.ReadingDependsOnItsGroup : Prop :=
  ∀ (frame frame' : Frame) (g : RailIndex) (s : State), frame.length = 24 → frame'.length = 24 →
    (∀ j : Fin 4, frame.getD (4 * g.val + j.val) 0 = frame'.getD (4 * g.val + j.val) 0) →
    ∃ snap snap' : Snapshot,
      exec (.decode frame) s = .next { s with responses := s.responses ++ [.snapshot snap] } ∧
      exec (.decode frame') s = .next { s with responses := s.responses ++ [.snapshot snap'] } ∧
      snap[g] = snap'[g]

/-- From R51, R83, R84 (R88 is marked derived in the spec): changing byte i changes exactly the one field that the address map
assigns to i, and puts the new byte into that half of it. -/
def Obligations.OneByteChangesOneField : Prop :=
  ∀ (frame : Frame) (i : Fin 24) (b : Byte) (s : State), frame.length = 24 → frame.getD i.val 0 ≠ b →
    ∃ snap snap' : Snapshot,
      exec (.decode frame) s = .next { s with responses := s.responses ++ [.snapshot snap] } ∧
      exec (.decode (frame.set i.val b)) s = .next { s with responses := s.responses ++ [.snapshot snap'] } ∧
      halfOf (fieldOf snap' (placeOf i).rail (placeOf i).kind) (placeOf i).half = b ∧
      ∀ (g : RailIndex) (k : FieldKind),
        fieldOf snap g k ≠ fieldOf snap' g k ↔ g = (placeOf i).rail ∧ k = (placeOf i).kind

/-- From R61 and R46 (the general formula is marked derived in the spec): DECODE's fields are the bit fields of the frame as one
192-bit number F, with frame[i] in F[191-8i : 184-8i]. -/
def Obligations.DecodeMatchesFrameNumber : Prop :=
  ∀ (frame : Frame) (s : State), frame.length = 24 →
    ∃ (F : BitVec 192) (snap : Snapshot),
      frameNumber frame = .ok F ∧
      (∀ i : Fin 24, F.extractLsb' (184 - 8 * i.val) 8 = frame.getD i.val 0) ∧
      exec (.decode frame) s = .next { s with responses := s.responses ++ [.snapshot snap] } ∧
      ∀ (g : RailIndex) (k : FieldKind), fieldOf snap g k = fieldOfNumber F g k

/-- From R46 (marked derived in the spec): group g as one 32-bit word has the voltage in bits 31..16 and the current in bits
15..0. -/
def Obligations.GroupWordHoldsBothFields : Prop :=
  ∀ (frame : Frame) (g : RailIndex) (s : State), frame.length = 24 →
    ∃ (W : BitVec 32) (snap : Snapshot),
      groupWord frame g = .ok W ∧
      exec (.decode frame) s = .next { s with responses := s.responses ++ [.snapshot snap] } ∧
      W.extractLsb' 16 16 = snap[g].voltageMv ∧ W.extractLsb' 0 16 = snap[g].currentMa

/-! ### Reading the frame (spec 20_memory.md) -/

/-- R43: the byte at the lower offset supplies bits 15..8, the next one bits 7..0. -/
def Obligations.FieldReadIsBigEndian : Prop :=
  ∀ (frame : Frame) (a : Nat), a + 1 < frame.length →
    ∃ v : Code,
      memRead16 frame a = .ok v ∧
      v.extractLsb' 8 8 = frame.getD a 0 ∧ v.extractLsb' 0 8 = frame.getD (a + 1) 0 ∧
      v.toNat = (frame.getD a 0).toNat * 256 + (frame.getD (a + 1) 0).toNat

/-- The model's choice (log 11), from R40: a field read that needs an offset outside FB faults, naming the first such offset. -/
def Obligations.ReadOutsideFrameFaults : Prop :=
  ∀ (frame : Frame) (a : Nat), frame.length ≤ a + 1 →
    memRead16 frame a = .error (.absentFrameByte (max a frame.length))

/-- From R91 (marked derived in the spec): the assembly of a field is 256 h + l, never above 65535, and at least 32768 exactly
when bit 7 of the high byte is set. -/
def Obligations.FieldIsUnsigned : Prop :=
  ∀ h l : Byte,
    (assembleField Config.fieldOrder h l).toNat = 256 * h.toNat + l.toNat ∧
    (assembleField Config.fieldOrder h l).toNat ≤ 65535 ∧
    (32768 ≤ (assembleField Config.fieldOrder h l).toNat ↔ h.getLsbD 7 = true)

/-- R48: DECODE's field reads are at the offsets 0, 2, .., 22, and each of the 24 bytes is read exactly once. -/
def Obligations.FieldReadsTileTheFrame : Prop :=
  accessOffsets = [0, 2, 4, 6, 8, 10, 12, 14, 16, 18, 20, 22] ∧
  (accessOffsets.flatMap (fun a => [a, a + 1])) = List.range 24 ∧
  ∀ g : RailIndex, fieldOffset g .voltage = 4 * g.val ∧ fieldOffset g .current = 4 * g.val + 2

/-- From R47, R51 (marked derived in the spec): the address map. Offset i is chip register 0x80 + i, rail i / 4, pin 6 - i / 4; its place leads
back to it, and no other place does; voltage offsets are 0 mod 4 and current offsets 2 mod 4. -/
def Obligations.AddressMapIsExact : Prop :=
  (∀ i : Fin 24,
    (addressMap Config.pinMap i).register = 0x80 + i.val ∧
    (addressMap Config.pinMap i).place.rail.val = i.val / 4 ∧
    (addressMap Config.pinMap i).pin.number = 6 - i.val / 4 ∧
    offsetOf (addressMap Config.pinMap i).place = i.val) ∧
  (∀ (p : FieldPlace) (i : Fin 24), offsetOf p = i.val → placeOf i = p) ∧
  ∀ g : RailIndex, fieldOffset g .voltage % 4 = 0 ∧ fieldOffset g .current % 4 = 2

/-! ### PINOF and the pin map (spec 41_pinmap.md) -/

/-- R102's pseudocode: PINOF answers the table's entry, in every state. -/
def Obligations.PinofAnswersTableEntry : Prop :=
  ∀ (g : RailIndex) (s : State),
    exec (.pinof g) s = .next { s with responses := s.responses ++ [.pin s.pinMap[g]] }

/-- R100: PIN_MAP[g] is pin 6 - g, and with that table PINOF g answers it. -/
def Obligations.PinofReversesRails : Prop :=
  ∀ (g : RailIndex) (s : State), s.pinMap = Config.pinMap →
    ∃ p : Pin, Config.pinMap[g] = p ∧ p.number = 6 - g.val ∧
      exec (.pinof g) s = .next { s with responses := s.responses ++ [.pin p] }

/-- From R100 (R104 and R105 are marked derived in the spec): PIN_MAP is a bijection onto the pins 1..6; pin p belongs to rail
6 - p; and PIN_MAP[5 - g] = 7 - PIN_MAP[g] = g + 1. -/
def Obligations.PinMapIsABijection : Prop :=
  (∀ p : Pin, 1 ≤ p.number ∧ p.number ≤ 6 ∧
    ∃ g : RailIndex, railOfPin Config.pinMap p = some g ∧ g.val = 6 - p.number ∧
      pinLookup Config.pinMap g = p ∧ ∀ g' : RailIndex, pinLookup Config.pinMap g' = p → g' = g) ∧
  ∀ g : RailIndex,
    (pinLookup Config.pinMap g.rev).number = 7 - (pinLookup Config.pinMap g).number ∧
    (pinLookup Config.pinMap g.rev).number = g.val + 1

/-! ### Errors, responses, determinism (spec 60_exceptions.md, 10_state.md) -/

/-- R110, R111: the response is WrongLength exactly for a DECODE of a frame whose length is not 24; then its bytes are the one
status byte 0x01, and every other response has status 0x00. -/
def Obligations.WrongLengthIsTheOnlyError : Prop :=
  ∀ (i : Instr) (s : State), ∃ r : Response,
    exec i s = .next { s with responses := s.responses ++ [r] } ∧
    ((∃ e, r = .error e) ↔ ∃ frame, i = .decode frame ∧ frame.length ≠ 24) ∧
    ((∃ e, r = .error e) → encodeResponse r = [0x01]) ∧
    ((¬ ∃ e, r = .error e) → status r = 0x00)

/-- From R20, R31: the response depends on the request's operands, and on PIN_MAP, and on nothing else in the state. -/
def Obligations.ResponseDependsOnRequestAndTable : Prop :=
  ∀ (i : Instr) (table : Config.PinMap), ∃ r : Response, ∀ s : State, s.pinMap = table →
    exec i s = .next { s with responses := s.responses ++ [r] }

/-- From R20 (R118 is marked derived in the spec): after a WrongLength the next request is answered as it would have been
without it. -/
def Obligations.ErrorIsNotSticky : Prop :=
  ∀ (frame : Frame) (i : Instr) (s : State), frame.length ≠ 24 →
    ∃ (t : State) (r : Response),
      exec (.decode frame) s = .next t ∧ t.responses = s.responses ++ [.error .wrongLength] ∧
      exec i s = .next { s with responses := s.responses ++ [r] } ∧
      exec i t = .next { t with responses := t.responses ++ [r] }

/-- From R24, R50, R89, R116: what DECODE and PINOF leave unchanged. They write no table, take no input, and only add one response
after those already delivered. -/
def Obligations.RequestsOnlyRespond : Prop :=
  ∀ (i : Instr) (s t : State), exec i s = .next t →
    t.pinMap = s.pinMap ∧ t.inputs = s.inputs ∧ ∃ r : Response, t.responses = s.responses ++ [r]

/-- From R40, R47, R111: no request, in any state, ends in a fault or a refusal of its own. -/
def Obligations.RequestsNeverStop : Prop :=
  ∀ (i : Instr) (s : State), (∀ f, exec i s ≠ .fault f) ∧ ∀ why, exec i s ≠ .refused why

/-! ### Request and response bytes (spec 30_encoding.md; the byte formats are the spec's own choice, D4 and D5) -/

/-- R65, R70: the decoder gives every well-formed request back from its bytes, with every operand at every value. -/
def Obligations.DecodeOfEncode : Prop :=
  ∀ i : Instr, i.wf = true → decodeRequest (encode i) = .ok i

/-- R65, R70: a byte string that decodes is the encoding of what it decodes to, so each request has one encoding. -/
def Obligations.EncodeOfDecode : Prop :=
  ∀ (bytes : List Byte) (i : Instr), decodeRequest bytes = .ok i → i.wf = true ∧ encode i = bytes

/-- R68: reserved opcodes, rail indices 6..255, a missing byte 1 and wrong byte counts are refused by the step. -/
def Obligations.RefusesReservedAndIllFramed : Prop :=
  ∀ (s : State) (bytes : List Byte) (rest : List HostInput), s.inputs = .request bytes :: rest →
    ((∃ op body, bytes = op :: body ∧ op ≠ 0x01 ∧ op ≠ 0x02) ∨
      (∃ g : Byte, bytes = [0x02, g] ∧ 6 ≤ g.toNat) ∨
      bytes = [0x01] ∨ bytes = [0x02] ∨
      (∃ len frame, bytes = 0x01 :: len :: frame ∧ frame.length ≠ len.toNat) ∨
      (∃ g x more, bytes = 0x02 :: g :: x :: more)) →
    ∃ why, step s = .refused (.rejected why)

/-- From R65, R68, R126; the empty byte string is refused by the model's own choice (log 9). A presented byte string is refused exactly when it
has neither of the two shapes of R65; every other one is answered with one response. -/
def Obligations.RefusedExactlyOutsideTheFormats : Prop :=
  ∀ (s : State) (bytes : List Byte) (rest : List HostInput), s.inputs = .request bytes :: rest →
    ((∃ why, step s = .refused (.rejected why)) ↔
      (∀ frame : Frame, frame.length ≤ 255 → bytes ≠ 0x01 :: BitVec.ofNat 8 frame.length :: frame) ∧
      ∀ g : RailIndex, bytes ≠ [0x02, BitVec.ofNat 8 g.val]) ∧
    ((¬ ∃ why, step s = .refused (.rejected why)) →
      ∃ r : Response, step s = .next { s with inputs := rest, responses := s.responses ++ [r] })

/-- R69: a REQ.DECODE of another length than 24, zero included, is a legal request, answered WrongLength. -/
def Obligations.OtherLengthsAreLegalRequests : Prop :=
  ∀ (frame : Frame) (s : State) (rest : List HostInput), frame.length ≤ 255 → frame.length ≠ 24 →
    s.inputs = .request (0x01 :: BitVec.ofNat 8 frame.length :: frame) :: rest →
    step s = .next { s with inputs := rest, responses := s.responses ++ [.error .wrongLength] }

/-- R66: the bytes of each response, and no status but 0x00 and 0x01. -/
def Obligations.ResponseLayout : Prop :=
  (∀ snap : Snapshot,
    (encodeResponse (.snapshot snap)).length = 31 ∧ (encodeResponse (.snapshot snap)).getD 0 0xFF = 0x00 ∧
    ∀ g : RailIndex,
      (encodeResponse (.snapshot snap)).getD (1 + 5 * g.val) 0 = BitVec.ofNat 8 g.val ∧
      (encodeResponse (.snapshot snap)).getD (2 + 5 * g.val) 0 = snap[g].voltageMv.extractLsb' 8 8 ∧
      (encodeResponse (.snapshot snap)).getD (3 + 5 * g.val) 0 = snap[g].voltageMv.extractLsb' 0 8 ∧
      (encodeResponse (.snapshot snap)).getD (4 + 5 * g.val) 0 = snap[g].currentMa.extractLsb' 8 8 ∧
      (encodeResponse (.snapshot snap)).getD (5 + 5 * g.val) 0 = snap[g].currentMa.extractLsb' 0 8) ∧
  (∀ e : DecodeError, encodeResponse (.error e) = [0x01]) ∧
  (∀ p : Pin, encodeResponse (.pin p) = [0x00, BitVec.ofNat 8 p.number]) ∧
  ∀ r : Response, status r = 0x00 ∨ status r = 0x01

/-- From R61, R66, R83, R84: end to end, the response bytes of an admitted frame are status 0x00 and then, for each g, the byte g
followed by the frame's own four bytes of group g. -/
def Obligations.ResponseCarriesFrameBytes : Prop :=
  ∀ (frame : Frame) (s : State), frame.length = 24 →
    ∃ r : Response,
      exec (.decode frame) s = .next { s with responses := s.responses ++ [r] } ∧
      encodeResponse r =
        0x00 :: (List.finRange 6).flatMap
          (fun g => BitVec.ofNat 8 g.val :: (frame.drop (4 * g.val)).take 4)

/-- From R66, R70: a host that knows which operation it asked for reads every response back from its bytes, and knows its length
from the status. -/
def Obligations.ResponseReadsBack : Prop :=
  ∀ (i : Instr) (s : State) (op : Opcode), opcodeOf (opcodeByte i) = some op →
    ∃ r : Response,
      exec i s = .next { s with responses := s.responses ++ [r] } ∧
      decodeResponse op (encodeResponse r) = some r ∧
      responseLength op (status r) = some (encodeResponse r).length

/-- The model's reading (log 18, DEDUCED), from R66 and R70: response bytes that the model's reader accepts as a response are that response's own
bytes. That no byte string outside R66 reads as a response, and that a record must carry its own index g, is the reader's. -/
def Obligations.ResponseBytesAreCanonical : Prop :=
  ∀ (op : Opcode) (bytes : List Byte) (r : Response),
    decodeResponse op bytes = some r → encodeResponse r = bytes

/-- From R65, R67: words written out from the encodings decode as they should; W1, W2, V9 and V11 of 95_test_vectors.md. -/
def Obligations.WrittenOutWordsDecode : Prop :=
  decodeRequest (0x01 :: 0x18 :: 0x00 :: 0x0C :: 0x00 :: 0x64 :: List.replicate 20 0x00) =
    .ok (.decode (0x00 :: 0x0C :: 0x00 :: 0x64 :: List.replicate 20 0x00)) ∧
  decodeRequest [0x01, 0x00] = .ok (.decode []) ∧
  decodeRequest [0x02, 0x03] = .ok (.pinof 3) ∧
  decodeRequest [0x02, 0x06] = .error (.indexOutOfRange 0x06) ∧
  decodeRequest [0x03, 0x00] = .error (.reservedOpcode 0x03)

/-- From R72, R73: the assembler's lines. `DECODE` of n listed bytes, runs expanded, assembles to 01 n and the bytes; `PINOF g` to
02 g; each is exactly one request. -/
def Obligations.LinesAssemble : Prop :=
  (∀ items : List AsmItem, (items.flatMap itemBytes).length ≤ 255 →
    ∃ bytes, assembleLine (.decode items) = some bytes ∧
      bytes = 0x01 :: BitVec.ofNat 8 (items.flatMap itemBytes).length :: items.flatMap itemBytes ∧
      decodeRequest bytes = .ok (.decode (items.flatMap itemBytes))) ∧
  ∀ g : RailIndex, assembleLine (.pinof g) = some [0x02, BitVec.ofNat 8 g.val] ∧
    decodeRequest [0x02, BitVec.ofNat 8 g.val] = .ok (.pinof g)

/-- From R72: the written-out line of a request assembles to that request's bytes. The letter case and the spacing of the printed line are the
model's choice (log 17). -/
def Obligations.PrintedRequestAssembles : Prop :=
  ∀ i : Instr, i.wf = true → assemble (printRequest i) = some (encode i)

/-! ### The step, reset and runs (spec 10_state.md R33, 20_memory.md R53, 70_reset_and_hazards.md) -/

/-- From R33, R70, R115: a presented byte string that decodes is taken off the inputs and run; so is an abstract request. -/
def Obligations.StepRunsTheDecodedRequest : Prop :=
  ∀ (s : State) (rest : List HostInput) (i : Instr),
    (∀ bytes, decodeRequest bytes = .ok i → s.inputs = .request bytes :: rest →
      step s = exec i { s with inputs := rest }) ∧
    (s.inputs = .call i :: rest → step s = exec i { s with inputs := rest })

/-- The model's own (log 5, log 19): the word of an opcode-table row, presented next, runs as the next step, and leaves what else was
presented for later. -/
def Obligations.FetchWordRunsNext : Prop :=
  ∀ (s : State) (nbits w : Nat) (i : Instr), decodeTableWord nbits w = some i →
    ∃ t : State, step (s.withFetchWord nbits w) = .next t ∧ exec i s = .next t

/-- The model's choice (log 4), from R114: with nothing presented a step changes nothing. -/
def Obligations.IdleStepChangesNothing : Prop :=
  ∀ s : State, s.inputs = [] → step s = .next s

/-- R130, R131; that what was delivered and what is still to come also stand is the model's choice (log 6, log 7). A reset and a request
that a reset interrupts get no response and change no table, and the next interaction is served exactly as without them. -/
def Obligations.ResetAnswersNothing : Prop :=
  ∀ (s : State) (rest : List HostInput) (x : HostInput),
    (x = .reset ∨ ∃ bytes, x = .interrupted bytes) → s.inputs = x :: rest →
    step s = .next { s with inputs := rest } ∧
    ∀ k : Nat, run (k + 1) s = run k { s with inputs := rest }

/-- R32: after reset the table is [6, 5, 4, 3, 2, 1]. That the inputs and the responses are empty is the model's choice for its own
fields (log 1, log 2); so no response is owed. -/
def Obligations.ResetState : Prop :=
  State.reset.pinMap.toList.map Pin.number = [6, 5, 4, 3, 2, 1] ∧
    State.reset.inputs = [] ∧ State.reset.responses = []

/-- R6, R7: the parameters of this revision; the rail indices and the pins are the numbers of their ranges. -/
def Obligations.ParameterValues : Prop :=
  Config.frameBytes = 24 ∧ Config.railCount = 6 ∧ Config.groupBytes = 4 ∧ Config.fieldBits = 16 ∧
  Config.fieldOrder = .bigEndian ∧ Config.pinMap.toList.map Pin.number = [6, 5, 4, 3, 2, 1] ∧
  Config.railIndexRange = ⟨0, 5⟩ ∧ Config.pinRange = ⟨1, 6⟩ ∧
  (∀ n : Nat, (∃ g : RailIndex, g.val = n) ↔ Config.railIndexRange.has n) ∧
  (∀ n : Nat, (∃ p : Pin, p.number = n) ↔ Config.pinRange.has n) ∧
  Config.chipBus = 4 ∧ Config.chipAddress = 0x2B ∧ Config.chipRegBase = 0x80 ∧ Config.readLength = 24

/-- From R28, R32: the invariant holds at reset. The table is this revision's; that no response is delivered yet, so that the clause on delivered
Snapshots is met, is the model's choice for its own field (log 2). -/
def Obligations.ResetMeetsInvariant : Prop := Inv State.reset

/-- From R24, R28, R29, R101: every step from every state that meets it keeps the invariant: the table stays this revision's, and every
delivered Snapshot lists reading g at position g. -/
def Obligations.StepKeepsInvariant : Prop :=
  ∀ s t : State, Inv s → step s = .next t → Inv t

/-- From R33 and R111: a step never faults, in any state, whatever is presented. -/
def Obligations.StepNeverFaults : Prop :=
  ∀ (s : State) (f : Fault), step s ≠ .fault f

/-- From R24, R29, R50, R137: a step writes no table and keeps every delivered response, adding at most one after them. The clause on the inputs is the
model's choice, since they are its own field (log 1): a step takes at most the oldest; that an idle step changes nothing is log 4; that at a reset or
an interrupted request the later inputs and the delivered responses stand is log 6 and log 7. -/
def Obligations.StepKeepsDeliveredResponses : Prop :=
  ∀ s t : State, step s = .next t →
    t.pinMap = s.pinMap ∧ t.inputs = s.inputs.tail ∧
    (t.responses = s.responses ∨ ∃ r : Response, t.responses = s.responses ++ [r])

/-- From R53, R117, R123: well-formed requests presented as bytes are answered one for one, in request order, and the answer to each is
the one it gets alone. -/
def Obligations.RequestsAnsweredInOrder : Prop :=
  ∀ (requests : List Instr) (s : State), (∀ i ∈ requests, i.wf = true) →
    s.inputs = requests.map (fun i => .request (encode i)) →
    ∃ answers : List Response,
      run requests.length s = .next { s with inputs := [], responses := s.responses ++ answers } ∧
      answers.length = requests.length ∧
      ∀ (k : Nat) (i : Instr) (r : Response), requests[k]? = some i → answers[k]? = some r →
        ∀ t : State, t.pinMap = s.pinMap →
          exec i t = .next { t with responses := t.responses ++ [r] }

/-- R126's last clause (the mark is the refused outcome, log 8): a run that was refused stays refused with that reason however much longer it is,
and its transcript keeps the responses and the mark. -/
def Obligations.RefusalMarkStays : Prop :=
  ∀ (j k : Nat) (s : State) (why : Refusal), run j s = .refused why →
    run (j + k) s = .refused why ∧
    transcript (j + k) s = transcript j s ∧ (transcript j s).mark = some why

/-! ### The system around the block (spec 20_memory.md R42; 60_exceptions.md R112) -/

/-- From R42, R49 and R112 (the correspondence of R42 with the registers, and R51, are marked derived in the spec), over the model's own transport and
host (log 20, DEDUCED): the frame of a successful sensor read is decoded into the chip registers 0x80..0x97, and a failed read presents nothing to
the block. That the step after a failed read then changes nothing is the model's reading (log 4, DEDUCED). -/
def Obligations.SensorReadIsDecoded : Prop :=
  (∀ (chip : Nat → Byte) (s : State), s.inputs = hostPresents (.ok (transportRead chip sensorRead)) →
    ∃ snap : Snapshot,
      step s = .next { s with inputs := [], responses := s.responses ++ [.snapshot snap] } ∧
      ∀ g : RailIndex,
        snap[g].voltageMv.toNat = (chip (0x80 + 4 * g.val)).toNat * 256 + (chip (0x81 + 4 * g.val)).toNat ∧
        snap[g].currentMa.toNat = (chip (0x82 + 4 * g.val)).toNat * 256 + (chip (0x83 + 4 * g.val)).toNat) ∧
  ∀ (e : TransportError) (s : State), s.inputs = hostPresents (.error e) → step s = .next s

/-! ### The encoding family -/

/-- R67: the opcode of DECODE is 0x01, of PINOF 0x02, and the other 254 values are reserved. -/
def Obligations.OpcodeMap : Prop :=
  ∀ op : Byte,
    (opcodeOf op = some .decode ↔ op = 0x01) ∧ (opcodeOf op = some .pinof ↔ op = 0x02) ∧
    (opcodeOf op = none ↔ op ≠ 0x01 ∧ op ≠ 0x02)
end

