-- ==== Sys2Proof/Laws/Config.lean ====
section
/-! SUPPORT. The parameters agree with each other and with the widths of the types (spec 00_scope.md R6). -/

namespace Sys2Proof.Config

@[simp] theorem frameBytes_eq : frameBytes = 24 := rfl
@[simp] theorem railCount_eq : railCount = 6 := rfl
@[simp] theorem groupBytes_eq : groupBytes = 4 := rfl
@[simp] theorem fieldBits_eq : fieldBits = 16 := rfl

theorem frameBytes_eq_groups : frameBytes = railCount * groupBytes := rfl
theorem groupBytes_eq_fields : groupBytes = 2 * fieldBits / 8 := rfl
theorem readLength_eq_frameBytes : readLength = frameBytes := rfl

/-- RAIL_INDEX_RANGE is the set of the RAIL_COUNT rail indices. -/
theorem railIndexRange_has_iff (n : Nat) : railIndexRange.has n ↔ n < railCount :=
  ⟨fun h => Nat.lt_succ_of_le h.2, fun h => ⟨Nat.zero_le n, Nat.le_of_lt_succ h⟩⟩

/-- PIN_RANGE in numbers. -/
theorem pinRange_has_iff (n : Nat) : pinRange.has n ↔ 1 ≤ n ∧ n ≤ 6 := Iff.rfl

end Sys2Proof.Config

namespace Sys2Proof

/-- A rail index in numbers, for arithmetic. -/
theorem railIndex_lt (g : RailIndex) : g.val < 6 := g.isLt

/-- A field code in numbers, for arithmetic. -/
theorem code_lt (c : Code) : c.toNat < 65536 := c.isLt

/-- A pin in numbers, for arithmetic. -/
theorem pin_number_range (p : Pin) : 1 ≤ p.number ∧ p.number ≤ 6 := p.inRange

/-- A pin is its number. -/
@[ext] theorem pin_ext {p q : Pin} (h : p.number = q.number) : p = q := by
  cases p; cases q; cases h; rfl

end Sys2Proof
end

