-- ==== Sys2Proof/Laws/Decode.lean ====
section
/-! SUPPORT. The opcode map and the two request bodies: all that they can answer. -/

namespace Sys2Proof

/-- A REQ.DECODE carries at most 255 frame bytes (R65). -/
theorem wf_decode_iff (frame : Frame) : (Instr.decode frame).wf = true ↔ frame.length ≤ 255 := by
  simp [Instr.wf]

/-- Every PINOF is well formed. -/
theorem wf_pinof (g : RailIndex) : (Instr.pinof g).wf = true := rfl

/-- The opcode map has the entries 0x01 and 0x02 and no other (R67). -/
theorem opcodeOf_eq (op : Byte) :
    opcodeOf op = if op = 0x01 then some .decode else if op = 0x02 then some .pinof else none := by
  revert op; decide

/-- No byte is claimed by two rows of the opcode map. -/
theorem opcodeTable_disjoint :
    opcodeTable.Pairwise (fun a b => ∀ op, ¬ (OpcodeRow.hits op a = true ∧ OpcodeRow.hits op b = true)) := by
  decide

/-- What REQ.DECODE's body comes to, when it has its length byte. -/
theorem decodeDecodeBody_ok_iff (len : Byte) (frame : List Byte) (i : Instr) :
    decodeDecodeBody (len :: frame) = .ok i ↔ frame.length = len.toNat ∧ i = .decode frame := by
  by_cases h : frame.length = len.toNat <;> simp [decodeDecodeBody, h, eq_comm]

/-- The numbers of the rail indices are 0..5 (R6). -/
theorem railOfNumber_eq (n : Nat) :
    railOfNumber n = if h : n < 6 then some ⟨n, h⟩ else none := by
  by_cases h : n < 6
  · simp only [railOfNumber, dif_pos ((Config.railIndexRange_has_iff n).2 h), dif_pos h]
  · simp only [railOfNumber, dif_neg (fun hr => h ((Config.railIndexRange_has_iff n).1 hr)), dif_neg h]

/-- What REQ.PINOF's body comes to, when it is one byte. -/
theorem decodePinofBody_ok_iff (g : Byte) (i : Instr) :
    decodePinofBody [g] = .ok i ↔ ∃ h : g.toNat < 6, i = .pinof ⟨g.toNat, h⟩ := by
  by_cases h : g.toNat < 6 <;> simp [decodePinofBody, railOfNumber_eq, h, eq_comm]

end Sys2Proof
end

