-- ==== Sys2Proof/Laws/State.lean ====
section
/-! SUPPORT. What each update of the state does to each field, and what a fetch answers for each kind of input. -/

namespace Sys2Proof.Machine

@[simp] theorem deliver_pinMap (r : Response) (s : State) : (deliver r s).pinMap = s.pinMap := rfl
@[simp] theorem deliver_inputs (r : Response) (s : State) : (deliver r s).inputs = s.inputs := rfl
@[simp] theorem deliver_responses (r : Response) (s : State) :
    (deliver r s).responses = s.responses ++ [r] := rfl

@[simp] theorem raiseError_pinMap (e : DecodeError) (s : State) : (raiseError e s).pinMap = s.pinMap := rfl
@[simp] theorem raiseError_inputs (e : DecodeError) (s : State) : (raiseError e s).inputs = s.inputs := rfl
@[simp] theorem raiseError_responses (e : DecodeError) (s : State) :
    (raiseError e s).responses = s.responses ++ [.error e] := rfl

@[simp] theorem resetEvent_pinMap (s : State) : (resetEvent s).pinMap = s.pinMap := rfl
@[simp] theorem resetEvent_inputs (s : State) : (resetEvent s).inputs = s.inputs := rfl
@[simp] theorem resetEvent_responses (s : State) : (resetEvent s).responses = s.responses := rfl

@[simp] theorem present_pinMap (x : HostInput) (s : State) : (present x s).pinMap = s.pinMap := rfl
@[simp] theorem present_inputs (x : HostInput) (s : State) : (present x s).inputs = x :: s.inputs := rfl
@[simp] theorem present_responses (x : HostInput) (s : State) : (present x s).responses = s.responses := rfl

@[simp] theorem reset_pinMap : State.reset.pinMap = Config.pinMap := rfl
@[simp] theorem reset_inputs : State.reset.inputs = [] := rfl
@[simp] theorem reset_responses : State.reset.responses = [] := rfl

/-- Nothing presented: the fetch is idle. -/
theorem fetch_of_nil {s : State} (h : s.inputs = []) : fetch s = .idle := by
  simp [fetch, h]

/-- Otherwise the oldest interaction is taken off the list and served. -/
theorem fetch_of_cons {s : State} {x : HostInput} {rest : List HostInput} (h : s.inputs = x :: rest) :
    fetch s = serve x { s with inputs := rest } := by
  simp [fetch, h]

/-- Serving an interaction never writes the table or the delivered responses, whatever it comes to. -/
theorem serve_keeps (x : HostInput) (s : State) :
    serve x s = .silent s ∨ (∃ i, serve x s = .run i s) ∨ ∃ why, serve x s = .reject why := by
  cases x with
  | call i => exact .inr (.inl ⟨i, rfl⟩)
  | request bytes =>
    simp only [serve]
    cases decodeRequest bytes with
    | ok i => exact .inr (.inl ⟨i, rfl⟩)
    | error why => exact .inr (.inr ⟨why, rfl⟩)
  | interrupted bytes => exact .inl rfl
  | reset => exact .inl rfl

end Sys2Proof.Machine
end

