-- ==== Sys2Proof/Laws/Ops.lean ====
section
/-! SUPPORT. One lemma per shared operation on a frame: all that it can answer. -/

namespace Sys2Proof.Machine

/-- A byte inside FB is read; outside, the read faults (R40). -/
theorem frameByte_eq (frame : Frame) (i : Nat) :
    frameByte frame i = if i < frame.length then .ok (frame.getD i 0) else .error (.absentFrameByte i) := by
  unfold frameByte
  by_cases h : i < frame.length
  · simp [h]
  · simp [h]

/-- The field assembled in big-endian order (R43). -/
theorem assembleField_bigEndian_toNat (h l : Byte) :
    (assembleField .bigEndian h l).toNat = h.toNat * 256 + l.toNat := by
  have hl := l.isLt
  simp only [assembleField, BitVec.toNat_append]
  rw [← Nat.shiftLeft_add_eq_or_of_lt hl, Nat.shiftLeft_eq]

/-- A 2-byte read inside FB. -/
theorem memRead16_ok {frame : Frame} {a : Nat} (h : a + 1 < frame.length) :
    memRead16 frame a = .ok (frame.getD a 0 ++ frame.getD (a + 1) 0) := by
  simp only [memRead16, frameByte_eq, if_pos h, if_pos (Nat.lt_of_succ_lt h)]
  rfl

/-- A field's high half is its first byte. -/
theorem halfOf_high_append (h l : Byte) : halfOf (h ++ l : Code) .high = h := by
  have := h.isLt
  have := l.isLt
  have e := assembleField_bigEndian_toNat h l
  apply BitVec.eq_of_toNat_eq
  simp only [halfOf, BitVec.extractLsb'_toNat, Nat.shiftRight_eq_div_pow]
  simp only [assembleField] at e
  omega

/-- A field's low half is its second byte. -/
theorem halfOf_low_append (h l : Byte) : halfOf (h ++ l : Code) .low = l := by
  have := h.isLt
  have := l.isLt
  have e := assembleField_bigEndian_toNat h l
  apply BitVec.eq_of_toNat_eq
  simp only [halfOf, BitVec.extractLsb'_toNat, Nat.shiftRight_eq_div_pow]
  simp only [assembleField] at e
  omega

/-- A field is its two halves. -/
theorem append_halves (c : Code) : (halfOf c .high ++ halfOf c .low : Code) = c := by
  have := code_lt c
  have e := assembleField_bigEndian_toNat (halfOf c .high) (halfOf c .low)
  apply BitVec.eq_of_toNat_eq
  simp only [assembleField, halfOf, BitVec.extractLsb'_toNat, Nat.shiftRight_eq_div_pow] at *
  omega

/-- Every field of an admitted frame lies inside FB (R47, R48). -/
theorem fieldOffset_lt (g : RailIndex) (k : FieldKind) : fieldOffset g k + 1 < 24 := by
  have := railIndex_lt g
  cases k with
  | voltage => show 4 * g.val + 0 + 1 < 24; omega
  | current => show 4 * g.val + 2 + 1 < 24; omega

theorem groupOffset_eq (g : RailIndex) : groupOffset g = 4 * g.val := rfl
theorem fieldOffset_voltage (g : RailIndex) : fieldOffset g .voltage = 4 * g.val := rfl
theorem fieldOffset_current (g : RailIndex) : fieldOffset g .current = 4 * g.val + 2 := rfl

/-- The reading that group g of a frame stands for. -/
def readingAt (frame : Frame) (g : RailIndex) : RailReading where
  railIndex := g
  voltageMv := frame.getD (4 * g.val) 0 ++ frame.getD (4 * g.val + 1) 0
  currentMa := frame.getD (4 * g.val + 2) 0 ++ frame.getD (4 * g.val + 3) 0

/-- A group of an admitted frame is read without a fault. -/
theorem readGroup_ok {frame : Frame} (h : frame.length = 24) (g : RailIndex) :
    readGroup frame g = .ok (readingAt frame g) := by
  have hv := fieldOffset_lt g .voltage
  have hc := fieldOffset_lt g .current
  rw [← h] at hv hc
  simp only [readGroup, memRead16_ok hv, memRead16_ok hc]
  rfl

/-- The snapshot of an admitted frame: the six readings in order, without a fault. -/
theorem readSnapshot_ok {frame : Frame} (h : frame.length = 24) :
    readSnapshot frame = .ok (Vector.ofFn (readingAt frame)) := by
  simp only [readSnapshot, readGroup_ok h]
  rfl

/-- The bytes of a read of any width inside FB. -/
theorem memReadBytes_ok (frame : Frame) (n a : Nat) (h : a + n ≤ frame.length) :
    memReadBytes frame a n = .ok ((frame.drop a).take n) := by
  induction n generalizing a with
  | zero => simp [memReadBytes]
  | succ n ih =>
    have ha : a < frame.length := by omega
    rw [memReadBytes, ih (a + 1) (by omega), frameByte_eq, if_pos ha, List.drop_eq_getElem_cons ha,
      List.take_succ_cons, List.getD_eq_getElem _ _ ha]
    rfl

theorem foldl_bigEndian (bytes : List Byte) (acc : Nat) :
    bytes.foldl (fun acc b => 256 * acc + b.toNat) acc =
      acc * 256 ^ bytes.length + bytes.foldl (fun acc b => 256 * acc + b.toNat) 0 := by
  induction bytes generalizing acc with
  | nil => simp
  | cons b bytes ih =>
    rw [List.foldl_cons, List.foldl_cons, ih, ih (256 * 0 + b.toNat), List.length_cons, Nat.pow_succ]
    ring

/-- The first byte of a wide view is its most significant one (R9). -/
theorem bigEndianNat_cons (b : Byte) (bytes : List Byte) :
    bigEndianNat (b :: bytes) = b.toNat * 256 ^ bytes.length + bigEndianNat bytes := by
  simp only [bigEndianNat, List.foldl_cons]
  rw [foldl_bigEndian]
  simp

/-- A wide view of n bytes has 8n bits. -/
theorem bigEndianNat_lt (bytes : List Byte) : bigEndianNat bytes < 256 ^ bytes.length := by
  induction bytes with
  | nil => simp [bigEndianNat]
  | cons b bytes ih =>
    have hb := b.isLt
    rw [bigEndianNat_cons, List.length_cons, Nat.pow_succ]
    have hp : 0 < 256 ^ bytes.length := by positivity
    nlinarith

/-- The length check admits exactly the 24-byte frames (R81). -/
theorem admitted_iff (frame : Frame) : admitted frame = true ↔ frame.length = 24 := by
  simp [admitted]

end Sys2Proof.Machine
end

