-- ==== Sys2Proof/Laws/PerInstr.lean ====
section
/-! SUPPORT. Statements about every instruction as syntax, one lemma per constructor. -/

namespace Sys2Proof.Laws.RequestShape

/-- The encoding of a request begins with its own opcode of the opcode map and has its total length (R65, R67). -/
def Statement (i : Instr) : Prop :=
  (encode i).head? = some (opcodeByte i) ∧ (encode i).length = requestLength i ∧
    ∃ op, opcodeOf (opcodeByte i) = some op

theorem decode (frame : Frame) : Statement (.decode frame) :=
  ⟨rfl, by simp [encode, requestLength]; omega, .decode, by simp only [opcodeByte]; decide⟩

theorem pinof (g : RailIndex) : Statement (.pinof g) :=
  ⟨rfl, rfl, .pinof, by simp only [opcodeByte]; decide⟩

end Sys2Proof.Laws.RequestShape
end

