-- ==== Sys2Proof/Laws/Response.lean ====
section
/-! SUPPORT. The records of a RSP.SNAPSHOT: writing one and reading it are inverse. -/

namespace Sys2Proof.Machine

/-- A pin is found by its number. -/
theorem pinOfNumber_number (p : Pin) : pinOfNumber p.number = some p := by
  simp only [pinOfNumber, dif_pos p.inRange]

/-- A pin found by a number has that number. -/
theorem number_of_pinOfNumber {n : Nat} {p : Pin} (h : pinOfNumber n = some p) : p.number = n := by
  unfold pinOfNumber at h
  split at h
  · cases h; rfl
  · cases h

/-- A field's two bytes are its halves. -/
theorem codeBytes_append (h l : Byte) : codeBytes (h ++ l : Code) = [h, l] := by
  have e1 := halfOf_high_append h l
  have e2 := halfOf_low_append h l
  simp only [halfOf] at e1 e2
  rw [codeBytes, e1, e2]

/-- A written record is read back, whatever follows it. -/
theorem readRecord_recordBytes {g : RailIndex} {r : RailReading} (h : r.railIndex = g) (rest : List Byte) :
    readRecord g (recordBytes g r ++ rest) = some (r, rest) := by
  obtain ⟨i, v, c⟩ := r
  have ev := append_halves v
  have ec := append_halves c
  simp only [halfOf] at ev ec h
  subst h
  simp only [recordBytes, codeBytes, List.cons_append, List.nil_append, readRecord, if_true]
  rw [ev, ec]

/-- A record that is read was written as the bytes it was read from. -/
theorem recordBytes_of_readRecord {g : RailIndex} {r : RailReading} {bytes rest : List Byte}
    (h : readRecord g bytes = some (r, rest)) : bytes = recordBytes g r ++ rest := by
  unfold readRecord at h
  split at h
  · split at h
    · next hi =>
      simp only [Option.some.injEq, Prod.mk.injEq] at h
      obtain ⟨rfl, rfl⟩ := h
      simp [recordBytes, codeBytes_append, hi]
    · simp at h
  · simp at h

/-- The bytes after the status of a Snapshot's response: its six records. -/
theorem responseBody_snapshot (snap : Snapshot) :
    responseBody (.snapshot snap) =
      recordBytes 0 snap[0] ++ (recordBytes 1 snap[1] ++ (recordBytes 2 snap[2] ++
        (recordBytes 3 snap[3] ++ (recordBytes 4 snap[4] ++ recordBytes 5 snap[5])))) := by
  simp only [responseBody, List.flatMap, List.finRange_succ, List.map_cons, List.flatten_cons]
  rfl

end Sys2Proof.Machine
end

