-- ==== Sys2Proof/Laws/Run.lean ====
section
/-! SUPPORT. A run unfolded one step at a time. -/

namespace Sys2Proof.Machine

theorem run_zero (s : State) : run 0 s = .next s := rfl

/-- The host's run of any machine, one step unfolded. -/
theorem coreRun_succ (M : Host.Core) (k : Nat) (s : M.State) :
    M.run (k + 1) s =
      match M.step s with
      | .next t => M.run k t
      | .fault f => .fault f
      | .refused why => .refused why := rfl

/-- The first step of a run decides how it goes on. -/
theorem run_succ (k : Nat) (s : State) :
    run (k + 1) s =
      match step s with
      | .next t => run k t
      | .fault f => .fault f
      | .refused why => .refused why := by
  refine (coreRun_succ Sys2Proof.core k s).trans ?_
  cases hs : step s with
  | next t => simp only [show Sys2Proof.core.step s = .next t from hs]; rfl
  | fault f => simp only [show Sys2Proof.core.step s = .fault f from hs]; rfl
  | refused why => simp only [show Sys2Proof.core.step s = .refused why from hs]; rfl

theorem run_of_next {s t : State} (h : step s = .next t) (k : Nat) : run (k + 1) s = run k t := by
  rw [run_succ, h]

theorem run_of_refused {s : State} {why : Refusal} (h : step s = .refused why) (k : Nat) :
    run (k + 1) s = .refused why := by
  rw [run_succ, h]

end Sys2Proof.Machine
end

