-- ==== Sys2Proof/Tests/Slice0.lean ====
section
/-! SUPPORT. Small tests, their expected results from spec/95_test_vectors.md, and a witness for the hypotheses of each statement
that has some. -/

namespace Sys2Proof.Machine

/-! ### Well-formedness and decoding -/

/-- Ill-formed: a frame that the 8-bit `len` of R65 cannot count. -/
theorem test_wf_refuses_256_bytes : (Instr.decode (List.replicate 256 0x00)).wf = false :=
  Bool.eq_false_iff.2 fun h => absurd ((wf_decode_iff _).1 h) (by rw [List.length_replicate]; decide)

/-- Well-formed: the longest frame that it can count. -/
theorem test_wf_admits_255_bytes : (Instr.decode (List.replicate 255 0x00)).wf = true :=
  (wf_decode_iff _).2 (by rw [List.length_replicate])

/-- The frame of W1: 00 0C 00 64, then twenty zero bytes. -/
def frameW1 : Frame := 0x00 :: 0x0C :: 0x00 :: 0x64 :: List.replicate 20 0x00

/-- The frame of V3: the bytes 00 to 17, ascending. -/
def frameV3 : Frame := (List.range 24).map (BitVec.ofNat 8)

/-- W1's request word, 01 18 and the frame. -/
theorem test_word_decode : decodeRequest (0x01 :: 0x18 :: frameW1) = .ok (.decode frameW1) := by decide

/-- W2's request word 02 05. -/
theorem test_word_pinof : decodeRequest [0x02, 0x05] = .ok (.pinof 5) := by decide

/-- V11: 02 06, 01 18 with 23 bytes, 01, 02, 03 00 and FF 18 are refused, each by its reason. -/
theorem test_words_refused :
    decodeRequest [0x02, 0x06] = .error (.indexOutOfRange 0x06) ∧
    decodeRequest (0x01 :: 0x18 :: List.replicate 23 0x00) = .error (.byteCount 26 25) ∧
    decodeRequest [0x01] = .error .missingLength ∧ decodeRequest [0x02] = .error .missingIndex ∧
    decodeRequest [0x03, 0x00] = .error (.reservedOpcode 0x03) ∧
    decodeRequest [0xFF, 0x18] = .error (.reservedOpcode 0xFF) := by decide

/-- The words of the opcode table's two rows, with operand bytes of zero. -/
theorem test_table_words :
    decodeTableWord 8 0x01 = some (.decode []) ∧ decodeTableWord 8 0x02 = some (.pinof 0) ∧
    decodeTableWord 16 0x1801 = some (.decode (List.replicate 24 0x00)) ∧
    decodeTableWord 16 0x0502 = some (.pinof 5) := by decide

/-! ### The two instructions, one step each -/

/-- The responses that a step from `s` leaves delivered. -/
def responsesAfter (s : State) : List Response :=
  match step s with
  | .next t => t.responses
  | .fault _ => []
  | .refused _ => []

/-- The codes of a response's Snapshot, in order. -/
def codesOf : Response → List (Nat × Nat)
  | .snapshot snap => snap.toList.map (fun r => (r.voltageMv.toNat, r.currentMa.toNat))
  | .error _ => []
  | .pin _ => []

/-- V3: the ascending bytes, which tell every field's place and byte order apart. -/
theorem test_decode_ascending :
    (responsesAfter (present (.request (0x01 :: 0x18 :: frameV3)) State.reset)).map codesOf =
      [[(1, 515), (1029, 1543), (2057, 2571), (3085, 3599), (4113, 4627), (5141, 5655)]] := by decide

/-- V9: 48 bytes, two valid frames, are WrongLength and not the first 24. -/
theorem test_decode_48_bytes :
    responsesAfter (present (.request (0x01 :: 0x30 :: (frameW1 ++ frameV3))) State.reset) =
      [.error .wrongLength] := by decide

/-- W2: the two ends of the pin map. -/
theorem test_pinof_ends :
    responsesAfter (present (.request [0x02, 0x00]) State.reset) = [.pin ⟨6, by decide⟩] ∧
    responsesAfter (present (.request [0x02, 0x05]) State.reset) = [.pin ⟨1, by decide⟩] := by decide

/-! ### Response bytes, runs, text -/

/-- W1's response bytes. -/
theorem test_response_bytes :
    (responsesAfter (present (.call (.decode frameW1)) State.reset)).map encodeResponse =
      [[0x00, 0x00, 0x00, 0x0C, 0x00, 0x64, 0x01, 0x00, 0x00, 0x00, 0x00, 0x02, 0x00, 0x00, 0x00, 0x00,
        0x03, 0x00, 0x00, 0x00, 0x00, 0x04, 0x00, 0x00, 0x00, 0x00, 0x05, 0x00, 0x00, 0x00, 0x00]] := by
  decide

/-- P4: the refused request gives no response and leaves its mark. -/
theorem test_refused_run :
    transcript 3 { State.reset with inputs := [.request [0x02, 0x05], .request [0x02, 0x06], .request [0x02, 0x00]] } =
      { responses := [.pin ⟨1, by decide⟩], mark := some (.rejected (.indexOutOfRange 0x06)) } := by decide

/-- W1's line, with its run of bytes and its comment. -/
theorem test_assemble_line :
    assemble "DECODE 00 0C 00 64 00*20  ; => OK".toList = some (0x01 :: 0x18 :: frameW1) := by decide

/-- W2's line and its result. -/
theorem test_assemble_pinof : assemble "PINOF 0 => PIN 6".toList = some [0x02, 0x00] := by decide

/-- W1's response, as R80's example writes it. -/
theorem test_print_response :
    (responsesAfter (present (.call (.decode frameW1)) State.reset)).map printResponse =
      ["OK [(12,100), (0,0), (0,0), (0,0), (0,0), (0,0)]".toList] := by decide

/-- R124: WrongLength is fatal to the host, a failed transaction is not. -/
theorem test_host_policy :
    fatalToHost (.decode .wrongLength) = true ∧ fatalToHost (.transport .transactionFailed) = false := by decide

/-! ### Witnesses: each statement's hypotheses are met together -/

theorem witness_DecodeReportsEachGroup : frameW1.length = 24 := by decide

theorem witness_DecodeWrongLength :
    ([] : Frame).length ≠ 24 ∧ (List.replicate 23 (0x00 : Byte)).length ≠ 24 ∧
    (List.replicate 25 (0x00 : Byte)).length ≠ 24 ∧ (frameW1 ++ frameV3).length ≠ 24 := by decide

theorem witness_DecodeOrderIgnoresPinMap : frameV3.length = 24 := by decide

theorem witness_SnapshotDeterminesFrame : frameV3.length = 24 := by decide

/-- Two frames that differ, and agree on group 5, the last. -/
theorem witness_ReadingDependsOnItsGroup :
    frameV3.length = 24 ∧ (frameV3.set 19 0xFF).length = 24 ∧ frameV3 ≠ frameV3.set 19 0xFF ∧
    ∀ j : Fin 4, frameV3.getD (4 * (5 : RailIndex).val + j.val) 0 =
      (frameV3.set 19 0xFF).getD (4 * (5 : RailIndex).val + j.val) 0 := by decide

/-- The first and the last byte of a frame. -/
theorem witness_OneByteChangesOneField :
    frameV3.length = 24 ∧ frameV3.getD (0 : Fin 24).val 0 ≠ 0xFF ∧ frameV3.getD (23 : Fin 24).val 0 ≠ 0xFF := by
  decide

theorem witness_DecodeMatchesFrameNumber : frameV3.length = 24 := by decide

theorem witness_GroupWordHoldsBothFields : frameV3.length = 24 := by decide

/-- The last field of a frame. -/
theorem witness_FieldReadIsBigEndian : 22 + 1 < frameV3.length := by decide

/-- The read that runs out of the frame at its second byte, and the one that starts outside. -/
theorem witness_ReadOutsideFrameFaults : frameV3.length ≤ 23 + 1 ∧ frameV3.length ≤ 24 + 1 := by decide

theorem witness_AddressMapIsExact :
    offsetOf { rail := 5, kind := .current, half := .low } = (23 : Fin 24).val := by decide

theorem witness_PinofReversesRails : State.reset.pinMap = Config.pinMap := rfl

theorem witness_PinMapIsABijection : pinLookup Config.pinMap 5 = ⟨1, by decide⟩ := by decide

/-- Both cases of the inner premises: a response that is an error, and one that is not. -/
theorem witness_WrongLengthIsTheOnlyError :
    exec (.decode []) State.reset = .next { State.reset with responses := [.error .wrongLength] } ∧
    exec (.pinof 0) State.reset = .next { State.reset with responses := [.pin ⟨6, by decide⟩] } := ⟨rfl, rfl⟩

theorem witness_ResponseDependsOnRequestAndTable : State.reset.pinMap = Config.pinMap := rfl

theorem witness_ErrorIsNotSticky : (List.replicate 25 (0x00 : Byte)).length ≠ 24 := by decide

theorem witness_RequestsOnlyRespond :
    exec (.decode []) State.reset = .next { State.reset with responses := [.error .wrongLength] } ∧
    exec (.pinof 5) State.reset = .next { State.reset with responses := [.pin ⟨1, by decide⟩] } := ⟨rfl, rfl⟩

theorem witness_DecodeOfEncode : (Instr.decode frameW1).wf = true ∧ (Instr.pinof 5).wf = true := by decide

theorem witness_EncodeOfDecode :
    decodeRequest [0x02, 0x05] = .ok (.pinof 5) ∧ decodeRequest [0x01, 0x00] = .ok (.decode []) := by decide

/-- One string for each of the six refused kinds, at the edges: opcode 0x00 and 0x03, index 6, no byte 1, one frame byte
missing, one byte too many. -/
theorem witness_RefusesReservedAndIllFramed :
    (∃ op body, [0x00] = op :: body ∧ op ≠ (0x01 : Byte) ∧ op ≠ 0x02) ∧
    (∃ op body, [0x03, 0x00] = op :: body ∧ op ≠ (0x01 : Byte) ∧ op ≠ 0x02) ∧
    (∃ g : Byte, [(0x02 : Byte), 0x06] = [0x02, g] ∧ 6 ≤ g.toNat) ∧
    (∃ len frame, 0x01 :: 0x18 :: List.replicate 23 0x00 = (0x01 : Byte) :: len :: frame ∧ frame.length ≠ len.toNat) ∧
    (∃ g x more, [(0x02 : Byte), 0x05, 0x00] = 0x02 :: g :: x :: more) ∧
    (present (.request [0x01]) State.reset).inputs = [.request [0x01]] ∧
    (present (.request [0x02]) State.reset).inputs = [.request [0x02]] :=
  ⟨⟨0x00, [], rfl, by decide, by decide⟩, ⟨0x03, [0x00], rfl, by decide, by decide⟩, ⟨0x06, rfl, by decide⟩,
    ⟨0x18, List.replicate 23 0x00, rfl, by decide⟩, ⟨0x05, 0x00, [], rfl⟩, rfl, rfl⟩

/-- A refused string and an answered one. -/
theorem witness_RefusedExactlyOutsideTheFormats :
    (present (.request [0x02, 0x06]) State.reset).inputs = .request [0x02, 0x06] :: [] ∧
    (present (.request [0x02, 0x05]) State.reset).inputs = .request [0x02, 0x05] :: [] ∧
    step (present (.request [0x02, 0x06]) State.reset) = .refused (.rejected (.indexOutOfRange 0x06)) ∧
    step (present (.request [0x02, 0x05]) State.reset) = .next { State.reset with responses := [.pin ⟨1, by decide⟩] } :=
  ⟨rfl, rfl, rfl, rfl⟩

/-- Length 0 and length 25. -/
theorem witness_OtherLengthsAreLegalRequests :
    ([] : Frame).length ≤ 255 ∧ ([] : Frame).length ≠ 24 ∧
    (present (.request [0x01, 0x00]) State.reset).inputs = .request [0x01, BitVec.ofNat 8 ([] : Frame).length] :: [] ∧
    (List.replicate 25 (0x00 : Byte)).length ≤ 255 ∧ (List.replicate 25 (0x00 : Byte)).length ≠ 24 := by decide

theorem witness_ResponseReadsBack :
    opcodeOf (opcodeByte (.pinof 5)) = some .pinof ∧ opcodeOf (opcodeByte (.decode [])) = some .decode := by decide

theorem witness_ResponseBytesAreCanonical :
    decodeResponse .pinof [0x00, 0x06] = some (.pin ⟨6, by decide⟩) ∧
    decodeResponse .decode [0x01] = some (.error .wrongLength) := by decide

/-- The longest line: one byte, 255 times. -/
theorem witness_LinesAssemble : ([{ byte := 0x00, count := 255 }].flatMap itemBytes).length ≤ 255 := by
  simp only [List.flatMap_cons, List.flatMap_nil, List.append_nil, itemBytes, List.length_replicate, le_refl]

theorem witness_PrintedRequestAssembles : (Instr.decode frameW1).wf = true := by decide

theorem witness_StepRunsTheDecodedRequest :
    decodeRequest [0x02, 0x05] = .ok (.pinof 5) ∧
    (present (.request [0x02, 0x05]) State.reset).inputs = .request [0x02, 0x05] :: [] ∧
    (present (.call (.pinof 5)) State.reset).inputs = .call (.pinof 5) :: [] := by decide

theorem witness_FetchWordRunsNext : decodeTableWord 16 0x0502 = some (.pinof 5) := by decide

theorem witness_IdleStepChangesNothing : State.reset.inputs = [] := rfl

theorem witness_ResetAnswersNothing :
    (present .reset State.reset).inputs = .reset :: [] ∧
    (present (.interrupted [0x02, 0x05]) State.reset).inputs = .interrupted [0x02, 0x05] :: [] := ⟨rfl, rfl⟩

/-- A step that delivers a Snapshot, from a state that meets the invariant. -/
theorem witness_StepKeepsInvariant :
    Inv (present (.call (.decode frameV3)) State.reset) ∧
    ∃ t, step (present (.call (.decode frameV3)) State.reset) = .next t ∧ t.responses.length = 1 :=
  ⟨⟨rfl, by simp⟩, _, rfl, by decide⟩

theorem witness_StepKeepsDeliveredResponses :
    step (present (.call (.pinof 0)) State.reset) = .next { State.reset with responses := [.pin ⟨6, by decide⟩] } := rfl

theorem witness_RequestsAnsweredInOrder :
    (∀ i ∈ [Instr.pinof 0, .decode [], .pinof 5], i.wf = true) ∧
    { State.reset with inputs := [Instr.pinof 0, .decode [], .pinof 5].map (fun i => .request (encode i)) }.inputs =
      [Instr.pinof 0, .decode [], .pinof 5].map (fun i => HostInput.request (encode i)) := by decide

theorem witness_RefusalMarkStays :
    run 1 (present (.request [0x02, 0x06]) State.reset) = .refused (.rejected (.indexOutOfRange 0x06)) := rfl

/-- A read that succeeded and one that failed. -/
theorem witness_SensorReadIsDecoded :
    { State.reset with inputs := hostPresents (.ok (transportRead (fun _ => 0xFF) sensorRead)) }.inputs =
      hostPresents (.ok (transportRead (fun _ => 0xFF) sensorRead)) ∧
    State.reset.inputs = hostPresents (.error .transactionFailed) := ⟨rfl, rfl⟩

end Sys2Proof.Machine
end

section
/-! The parameters of this revision and the types that use their ranges (spec 00_scope.md R6, R7). -/

namespace Sys2Proof

theorem exists_railIndex_val_eq_iff (n : Nat) :
    (∃ g : RailIndex, g.val = n) ↔ Config.railIndexRange.has n := by
  rw [Config.railIndexRange_has_iff]
  constructor
  · rintro ⟨g, rfl⟩
    exact g.isLt
  · intro h
    exact ⟨⟨n, h⟩, rfl⟩

theorem exists_pin_number_eq_iff (n : Nat) : (∃ p : Pin, p.number = n) ↔ Config.pinRange.has n := by
  constructor
  · rintro ⟨p, rfl⟩
    exact p.inRange
  · intro h
    exact ⟨⟨n, h⟩, rfl⟩

theorem Config.pinMap_numbers : Config.pinMap.toList.map Pin.number = [6, 5, 4, 3, 2, 1] := rfl

end Sys2Proof

namespace Sys2Proof.Machine

/-- Settles O41: each constant unfolds to its value, and each of the two ranges holds exactly the numbers its type can hold. -/
theorem parameterValues : Obligations.ParameterValues := by
  unfold Obligations.ParameterValues
  exact ⟨Config.frameBytes_eq, Config.railCount_eq, Config.groupBytes_eq, Config.fieldBits_eq, rfl,
    Config.pinMap_numbers, rfl, rfl, exists_railIndex_val_eq_iff, exists_pin_number_eq_iff, rfl, rfl, rfl, rfl⟩

end Sys2Proof.Machine
end

section
/-! What a request and a step do to the state: the response is a function of the request and the table, a request only delivers
it, and a step takes at most one interaction (spec 10_state.md R20, R24, R33). -/

namespace Sys2Proof.Machine

/-! ### One request -/

/-- The response that a block with PIN_MAP `table` owes a request (R81 to R85, R102). -/
def responseTo (table : Config.PinMap) : Instr → Response
  | .decode frame =>
    if frame.length = 24 then .snapshot (Vector.ofFn (readingAt frame)) else .error .wrongLength
  | .pinof g => .pin (pinLookup table g)

theorem responseTo_decode_of_length {frame : Frame} (h : frame.length = 24) (table : Config.PinMap) :
    responseTo table (.decode frame) = .snapshot (Vector.ofFn (readingAt frame)) := if_pos h

theorem responseTo_decode_of_length_ne {frame : Frame} (h : frame.length ≠ 24) (table : Config.PinMap) :
    responseTo table (.decode frame) = .error .wrongLength := if_neg h

theorem execDecode_of_length {frame : Frame} (h : frame.length = 24) (s : State) :
    execDecode frame s = .next (deliver (.snapshot (Vector.ofFn (readingAt frame))) s) := by
  simp only [execDecode, (admitted_iff frame).2 h, readSnapshot_ok h, if_true]

theorem execDecode_of_length_ne {frame : Frame} (h : frame.length ≠ 24) (s : State) :
    execDecode frame s = .next (deliver (.error .wrongLength) s) :=
  if_neg (mt (admitted_iff frame).1 h)

/-- A request runs to completion in every state, and its one effect is its response (R33, R50). -/
theorem exec_eq (i : Instr) (s : State) : exec i s = .next (deliver (responseTo s.pinMap i) s) := by
  cases i with
  | decode frame =>
    by_cases h : frame.length = 24
    · rw [responseTo_decode_of_length h]
      exact execDecode_of_length h s
    · rw [responseTo_decode_of_length_ne h]
      exact execDecode_of_length_ne h s
  | pinof g => rfl

/-- DECODE's Snapshot is in logical index order, since each reading carries the index of its own group (R28). -/
theorem snapshot_ofFn_readingAt_wf (frame : Frame) : Snapshot.wf (Vector.ofFn (readingAt frame)) := by
  intro g
  simp [readingAt]

theorem responseTo_wf (table : Config.PinMap) (i : Instr) : (responseTo table i).wf := by
  cases i with
  | decode frame =>
    by_cases h : frame.length = 24
    · rw [responseTo_decode_of_length h]
      exact snapshot_ofFn_readingAt_wf frame
    · rw [responseTo_decode_of_length_ne h]
      trivial
  | pinof g => trivial

/-! ### One step -/

/-- The state without its oldest interaction, if one is presented. -/
def takeInput (s : State) : State := { s with inputs := s.inputs.tail }

@[simp] theorem takeInput_pinMap (s : State) : (takeInput s).pinMap = s.pinMap := rfl
@[simp] theorem takeInput_inputs (s : State) : (takeInput s).inputs = s.inputs.tail := rfl
@[simp] theorem takeInput_responses (s : State) : (takeInput s).responses = s.responses := rfl

theorem takeInput_of_nil {s : State} (h : s.inputs = []) : takeInput s = s := by
  cases s; cases h; rfl

theorem takeInput_of_cons {s : State} {x : HostInput} {rest : List HostInput} (h : s.inputs = x :: rest) :
    takeInput s = { s with inputs := rest } := by
  rw [takeInput, h, List.tail_cons]

theorem step_of_nil {s : State} (h : s.inputs = []) : step s = .next s := by
  simp only [step, fetch_of_nil h]

theorem step_of_call {s : State} {i : Instr} {rest : List HostInput} (h : s.inputs = .call i :: rest) :
    step s = exec i (takeInput s) := by
  simp only [step, fetch_of_cons h, serve, takeInput_of_cons h]

theorem step_of_request_ok {s : State} {bytes : List Byte} {i : Instr} {rest : List HostInput}
    (h : s.inputs = .request bytes :: rest) (hi : decodeRequest bytes = .ok i) :
    step s = exec i (takeInput s) := by
  simp only [step, fetch_of_cons h, serve, hi, takeInput_of_cons h]

/-- All that a step can come to: it takes the oldest interaction and answers nothing, or runs a request, or refuses. -/
theorem step_cases (s : State) :
    step s = .next (takeInput s) ∨ (∃ i, step s = exec i (takeInput s)) ∨
      ∃ why, step s = .refused (.rejected why) := by
  cases h : s.inputs with
  | nil =>
    rw [takeInput_of_nil h]
    exact .inl (step_of_nil h)
  | cons x rest =>
    rw [takeInput_of_cons h]
    simp only [step, fetch_of_cons h]
    obtain hserve | ⟨i, hserve⟩ | ⟨why, hserve⟩ := serve_keeps x { s with inputs := rest }
    · exact .inl (by rw [hserve])
    · exact .inr (.inl ⟨i, by rw [hserve]⟩)
    · exact .inr (.inr ⟨why, by rw [hserve]⟩)

/-- The next state of a step that has one: an interaction taken, and for a request its response delivered. -/
theorem eq_of_step_eq_next {s t : State} (h : step s = .next t) :
    t = takeInput s ∨ ∃ i, t = deliver (responseTo s.pinMap i) (takeInput s) := by
  obtain hs | ⟨i, hs⟩ | ⟨why, hs⟩ := step_cases s
  · rw [h] at hs
    cases hs
    exact .inl rfl
  · rw [h, exec_eq] at hs
    cases hs
    exact .inr ⟨i, rfl⟩
  · rw [h] at hs
    cases hs

/-! ### The invariant -/

theorem inv_reset : Inv State.reset :=
  ⟨reset_pinMap, fun _ h => absurd (reset_responses ▸ h) List.not_mem_nil⟩

theorem inv_takeInput {s : State} (h : Inv s) : Inv (takeInput s) := h

theorem inv_deliver {s : State} {r : Response} (h : Inv s) (hr : r.wf) : Inv (deliver r s) := by
  obtain ⟨htable, hdelivered⟩ := h
  refine ⟨htable, fun q hq => ?_⟩
  obtain hq | hq := List.mem_append.1 hq
  · exact hdelivered q hq
  · rwa [List.mem_singleton.1 hq]

/-! ### The obligations -/

/-- Settles O43: taking an interaction leaves table and responses alone, and every response a request delivers is sound. -/
theorem stepKeepsInvariant : Obligations.StepKeepsInvariant := by
  unfold Obligations.StepKeepsInvariant
  intro s t hinv hstep
  obtain rfl | ⟨i, rfl⟩ := eq_of_step_eq_next hstep
  · exact inv_takeInput hinv
  · exact inv_deliver (inv_takeInput hinv) (responseTo_wf s.pinMap i)

/-- Settles O20: the one response is `responseTo table i`. -/
theorem responseDependsOnRequestAndTable : Obligations.ResponseDependsOnRequestAndTable := by
  unfold Obligations.ResponseDependsOnRequestAndTable
  intro i table
  refine ⟨responseTo table i, ?_⟩
  rintro s rfl
  exact exec_eq i s

/-- Settles O21: a WrongLength is delivered without a write to the table, and a response depends on no other field. -/
theorem errorIsNotSticky : Obligations.ErrorIsNotSticky := by
  unfold Obligations.ErrorIsNotSticky
  intro frame i s hlen
  refine ⟨raiseError .wrongLength s, responseTo s.pinMap i, execDecode_of_length_ne hlen s, rfl, exec_eq i s, ?_⟩
  exact exec_eq i (raiseError .wrongLength s)

/-- Settles O22: the next state of a request is the state with its response delivered. -/
theorem requestsOnlyRespond : Obligations.RequestsOnlyRespond := by
  unfold Obligations.RequestsOnlyRespond
  intro i s t h
  rw [exec_eq] at h
  cases h
  exact ⟨rfl, rfl, responseTo s.pinMap i, rfl⟩

/-- Settles O23: every request completes. -/
theorem requestsNeverStop : Obligations.RequestsNeverStop := by
  unfold Obligations.RequestsNeverStop
  intro i s
  rw [exec_eq]
  exact ⟨fun _ => nofun, fun _ => nofun⟩

/-- Settles O44: a step without a next state is a refusal, since the request it runs completes. -/
theorem stepNeverFaults : Obligations.StepNeverFaults := by
  unfold Obligations.StepNeverFaults
  intro s f
  obtain hs | ⟨i, hs⟩ | ⟨why, hs⟩ := step_cases s <;> rw [hs]
  · nofun
  · exact (requestsNeverStop i (takeInput s)).1 f
  · nofun

/-- Settles O45: a step takes an interaction and delivers one response or none. -/
theorem stepKeepsDeliveredResponses : Obligations.StepKeepsDeliveredResponses := by
  unfold Obligations.StepKeepsDeliveredResponses
  intro s t h
  obtain rfl | ⟨i, rfl⟩ := eq_of_step_eq_next h
  · exact ⟨rfl, rfl, .inl rfl⟩
  · exact ⟨rfl, rfl, .inr ⟨responseTo s.pinMap i, rfl⟩⟩

/-- Settles O36, by the step's equation for each of the two forms of a request. -/
theorem stepRunsTheDecodedRequest : Obligations.StepRunsTheDecodedRequest := by
  unfold Obligations.StepRunsTheDecodedRequest
  intro s rest i
  constructor
  · intro bytes hd h
    rw [step_of_request_ok h hd, takeInput_of_cons h]
  · intro h
    rw [step_of_call h, takeInput_of_cons h]

/-- Settles O40: the reset table is the constant PIN_MAP, and the model's own fields start empty. -/
theorem resetState : Obligations.ResetState := by
  unfold Obligations.ResetState
  exact ⟨Config.pinMap_numbers, reset_inputs, reset_responses⟩

/-- Settles O42: the reset table is this revision's, and no response is delivered yet. -/
theorem resetMeetsInvariant : Obligations.ResetMeetsInvariant := by
  unfold Obligations.ResetMeetsInvariant
  exact inv_reset

end Sys2Proof.Machine
end

section
/-! Reading the frame: the fields that DECODE reports are the bytes at their offsets, and the field reads tile the frame
(spec 20_memory.md R43, R48, R52; 40_decode.md R82). -/

namespace Sys2Proof.Machine

/-! ### The bytes of a field -/

theorem code_append_toNat (h l : Byte) : (h ++ l : Code).toNat = h.toNat * 256 + l.toNat :=
  assembleField_bigEndian_toNat h l

/-- DECODE reads each field from the two bytes at its own offset (R48, R83, R84). -/
theorem fieldOf_ofFn_readingAt (frame : Frame) (g : RailIndex) (k : FieldKind) :
    fieldOf (Vector.ofFn (readingAt frame)) g k =
      (frame.getD (fieldOffset g k) 0 ++ frame.getD (fieldOffset g k + 1) 0 : Code) := by
  cases k with
  | voltage => simp [fieldOf, readingAt, fieldOffset_voltage]
  | current => simp [fieldOf, readingAt, fieldOffset_current]

/-- Settles O11: the bytes assembled into the field are the halves it is cut into. -/
theorem fieldReadIsBigEndian : Obligations.FieldReadIsBigEndian := by
  unfold Obligations.FieldReadIsBigEndian
  intro frame a h
  exact ⟨_, memRead16_ok h, halfOf_high_append _ _, halfOf_low_append _ _, code_append_toNat _ _⟩

/-! ### The twelve field reads and the frame -/

/-- Each byte of the frame lies in exactly one field read (R48, R52). -/
theorem accessOffsets_flatMap_bytes : accessOffsets.flatMap (fun a => [a, a + 1]) = List.range 24 := by
  decide

/-- Settles O14: a closed list of twelve offsets, and the offset of each field. -/
theorem fieldReadsTileTheFrame : Obligations.FieldReadsTileTheFrame := by
  unfold Obligations.FieldReadsTileTheFrame
  exact ⟨by decide, accessOffsets_flatMap_bytes, fun g => ⟨fieldOffset_voltage g, fieldOffset_current g⟩⟩

theorem map_getD_range_length (frame : Frame) :
    (List.range frame.length).map (fun i => frame.getD i 0) = frame := by
  apply List.ext_getElem
  · simp
  · intro i _ hi
    simp [hi]

/-- Laying DECODE's codes out again writes, for each field read, the two bytes that it read. -/
theorem layoutFrame_fieldOf_ofFn_readingAt (frame : Frame) :
    layoutFrame (fieldOf (Vector.ofFn (readingAt frame))) =
      (accessOffsets.flatMap (fun a => [a, a + 1])).map (fun i => frame.getD i 0) := by
  simp [layoutFrame, accessOffsets, fieldOf_ofFn_readingAt, halfOf_high_append, halfOf_low_append,
    List.flatMap_assoc, List.map_flatMap]

/-- Settles O5: the bytes laid out are the bytes read, and the field reads cover the frame in order. -/
theorem snapshotDeterminesFrame : Obligations.SnapshotDeterminesFrame := by
  unfold Obligations.SnapshotDeterminesFrame
  intro frame s h
  refine ⟨Vector.ofFn (readingAt frame), execDecode_of_length h s, ?_⟩
  rw [layoutFrame_fieldOf_ofFn_readingAt, accessOffsets_flatMap_bytes, ← h, map_getD_range_length]

end Sys2Proof.Machine
end

section
/-! The wide views of a frame: any run of bytes as one big-endian number, the byte and field slices of it, and DECODE's fields in F
and in W (spec 20_memory.md R9, R46; 30_encoding.md R61). -/

namespace Sys2Proof.Machine

/-! ### Slices of a wide view -/

theorem bigEndianNat_append (xs ys : List Byte) :
    bigEndianNat (xs ++ ys) = bigEndianNat xs * 256 ^ ys.length + bigEndianNat ys := by
  rw [bigEndianNat, List.foldl_append, foldl_bigEndian]
  rfl

theorem bigEndianNat_append_div (xs ys : List Byte) :
    bigEndianNat (xs ++ ys) / 256 ^ ys.length = bigEndianNat xs := by
  rw [bigEndianNat_append, Nat.add_comm, Nat.add_mul_div_right _ _ (Nat.pow_pos (by decide)),
    Nat.div_eq_of_lt (bigEndianNat_lt ys), Nat.zero_add]

theorem bigEndianNat_append_mod (xs ys : List Byte) :
    bigEndianNat (xs ++ ys) % 256 ^ ys.length = bigEndianNat ys := by
  rw [bigEndianNat_append, Nat.add_comm, Nat.add_mul_mod_self_right, Nat.mod_eq_of_lt (bigEndianNat_lt ys)]

/-- The n bytes from a on, cut out of a wide view of all bytes. -/
theorem bigEndianNat_div_mod {bytes : List Byte} {a n : Nat} (h : a + n ≤ bytes.length) :
    bigEndianNat bytes / 256 ^ (bytes.length - (a + n)) % 256 ^ n = bigEndianNat ((bytes.drop a).take n) := by
  have hsplit : (bytes.take a ++ (bytes.drop a).take n) ++ bytes.drop (a + n) = bytes := by
    rw [← List.take_add, List.take_append_drop]
  have hlen : ((bytes.drop a).take n).length = n := by
    rw [List.length_take, List.length_drop]
    omega
  have hdiv := bigEndianNat_append_div (bytes.take a ++ (bytes.drop a).take n) (bytes.drop (a + n))
  have hmod := bigEndianNat_append_mod (bytes.take a) ((bytes.drop a).take n)
  rw [hsplit, List.length_drop] at hdiv
  rw [hlen] at hmod
  rw [hdiv, hmod]

theorem two_pow_mul_eight (n : Nat) : 2 ^ (8 * n) = 256 ^ n := Nat.pow_mul 2 8 n

/-- The bits of a wide view from `lo` up are a narrower wide view: that of the n bytes from a on (R9, R46). -/
theorem extractLsb'_ofNat_bigEndianNat {bytes : List Byte} {w lo a n : Nat} (hw : w = 8 * bytes.length)
    (hlo : lo + 8 * (a + n) = w) :
    (BitVec.ofNat w (bigEndianNat bytes)).extractLsb' lo (8 * n) =
      BitVec.ofNat (8 * n) (bigEndianNat ((bytes.drop a).take n)) := by
  obtain rfl : lo = 8 * (bytes.length - (a + n)) := by omega
  subst hw
  apply BitVec.eq_of_toNat_eq
  rw [BitVec.extractLsb'_toNat, BitVec.toNat_ofNat, BitVec.toNat_ofNat, Nat.shiftRight_eq_div_pow]
  simp only [two_pow_mul_eight]
  rw [Nat.mod_eq_of_lt (bigEndianNat_lt bytes), ← bigEndianNat_div_mod (by omega), Nat.mod_mod]

theorem take_one_drop_eq_getD {bytes : List Byte} {a : Nat} (h : a + 1 ≤ bytes.length) :
    (bytes.drop a).take 1 = [bytes.getD a 0] := by
  rw [List.take_one_drop_eq_of_lt_length h, List.getD_eq_getElem _ _ h, List.get_eq_getElem]

theorem take_two_drop_eq_getD {bytes : List Byte} {a : Nat} (h : a + 2 ≤ bytes.length) :
    (bytes.drop a).take 2 = [bytes.getD a 0, bytes.getD (a + 1) 0] := by
  have ha : a < bytes.length := by omega
  rw [List.drop_eq_getElem_cons ha, List.take_succ_cons, take_one_drop_eq_getD h, List.getD_eq_getElem _ _ ha]

/-- A byte of a wide view. -/
theorem extractLsb'_ofNat_bigEndianNat_byte {bytes : List Byte} {w lo a : Nat} (hw : w = 8 * bytes.length)
    (hlo : lo + 8 * (a + 1) = w) :
    (BitVec.ofNat w (bigEndianNat bytes)).extractLsb' lo 8 = bytes.getD a 0 := by
  have hcut := extractLsb'_ofNat_bigEndianNat hw hlo
  rw [take_one_drop_eq_getD (by omega)] at hcut
  refine hcut.trans ?_
  simp [bigEndianNat]

/-- A field of a wide view is the field assembled from its two bytes. -/
theorem extractLsb'_ofNat_bigEndianNat_field {bytes : List Byte} {w lo a : Nat} (hw : w = 8 * bytes.length)
    (hlo : lo + 8 * (a + 2) = w) :
    (BitVec.ofNat w (bigEndianNat bytes)).extractLsb' lo 16 =
      (bytes.getD a 0 ++ bytes.getD (a + 1) 0 : Code) := by
  have hcut := extractLsb'_ofNat_bigEndianNat hw hlo
  rw [take_two_drop_eq_getD (by omega)] at hcut
  refine hcut.trans (BitVec.eq_of_toNat_eq ?_)
  rw [code_append_toNat, BitVec.toNat_ofNat]
  have hlt := code_lt (bytes.getD a 0 ++ bytes.getD (a + 1) 0)
  rw [code_append_toNat] at hlt
  simp only [bigEndianNat, List.foldl_cons, List.foldl_nil]
  omega

/-! ### The frame and its groups as words -/

/-- A read of any width inside FB answers the wide view of its bytes (R9). -/
theorem memRead_ok {frame : Frame} {a n : Nat} (h : a + n ≤ frame.length) :
    memRead frame a n = .ok (BitVec.ofNat (8 * n) (bigEndianNat ((frame.drop a).take n))) := by
  rw [memRead, memReadBytes_ok frame n a h]
  rfl

theorem frameNumber_ok {frame : Frame} (h : frame.length = 24) :
    frameNumber frame = .ok (BitVec.ofNat 192 (bigEndianNat frame)) := by
  rw [frameNumber, memRead_ok (n := Config.frameBytes) h.ge, List.drop_zero, List.take_of_length_le h.le]
  rfl

/-- The four bytes of group g, in frame order (R61). -/
def groupBytesOf (frame : Frame) (g : RailIndex) : List Byte := (frame.drop (groupOffset g)).take Config.groupBytes

theorem groupOffset_le (g : RailIndex) : groupOffset g + 4 ≤ 24 := by
  have := railIndex_lt g
  rw [groupOffset_eq]
  omega

theorem groupBytesOf_length {frame : Frame} (h : frame.length = 24) (g : RailIndex) :
    (groupBytesOf frame g).length = 4 := by
  have := groupOffset_le g
  rw [groupBytesOf, List.length_take, List.length_drop, Config.groupBytes_eq]
  omega

theorem getD_groupBytesOf (frame : Frame) (g : RailIndex) {j : Nat} (hj : j < 4) :
    (groupBytesOf frame g).getD j 0 = frame.getD (4 * g.val + j) 0 := by
  simp [groupBytesOf, groupOffset_eq, hj]

theorem groupWord_ok {frame : Frame} (h : frame.length = 24) (g : RailIndex) :
    groupWord frame g = .ok (BitVec.ofNat 32 (bigEndianNat (groupBytesOf frame g))) :=
  memRead_ok (h ▸ groupOffset_le g)

/-- The lowest bit of a field in F and its frame offset are two ways to say the same place (R61). -/
theorem fieldLowBit_add_fieldOffset (g : RailIndex) (k : FieldKind) :
    fieldLowBit g k + 8 * (fieldOffset g k + 2) = 192 := by
  have := railIndex_lt g
  cases k with
  | voltage => rw [fieldOffset_voltage, fieldLowBit]; omega
  | current => rw [fieldOffset_current, fieldLowBit]; omega

/-- Settles O9: a byte and a field of F are the byte and the field at the frame offset that lies as far from the high end. -/
theorem decodeMatchesFrameNumber : Obligations.DecodeMatchesFrameNumber := by
  unfold Obligations.DecodeMatchesFrameNumber
  intro frame s h
  have hw : 192 = 8 * frame.length := by omega
  refine ⟨_, Vector.ofFn (readingAt frame), frameNumber_ok h, fun i => ?_, execDecode_of_length h s, fun g k => ?_⟩
  · exact extractLsb'_ofNat_bigEndianNat_byte hw (by omega)
  · rw [fieldOf_ofFn_readingAt]
    exact (extractLsb'_ofNat_bigEndianNat_field hw (fieldLowBit_add_fieldOffset g k)).symm

/-- Settles O10: W is the wide view of the group's four bytes, the voltage's two above the current's two. -/
theorem groupWordHoldsBothFields : Obligations.GroupWordHoldsBothFields := by
  unfold Obligations.GroupWordHoldsBothFields
  intro frame g s h
  have hw : 32 = 8 * (groupBytesOf frame g).length := by rw [groupBytesOf_length h]
  refine ⟨_, Vector.ofFn (readingAt frame), groupWord_ok h g, execDecode_of_length h s, ?_, ?_⟩
  · rw [extractLsb'_ofNat_bigEndianNat_field (a := 0) hw rfl, getD_groupBytesOf _ _ (by decide),
      getD_groupBytesOf _ _ (by decide)]
    exact (fieldOf_ofFn_readingAt frame g .voltage).symm
  · rw [extractLsb'_ofNat_bigEndianNat_field (a := 2) hw rfl, getD_groupBytesOf _ _ (by decide),
      getD_groupBytesOf _ _ (by decide)]
    exact (fieldOf_ofFn_readingAt frame g .current).symm

end Sys2Proof.Machine
end

section
/-! Requests in order, and the frame of a sensor read: what the host presents and what the block answers, over whole runs and at the
step (spec 20_memory.md R42, R49, R53; 60_exceptions.md R112, R123). -/

namespace Sys2Proof

theorem opcodeOf_decode : opcodeOf 0x01 = some .decode := by decide
theorem opcodeOf_pinof : opcodeOf 0x02 = some .pinof := by decide

/-- The REQ bytes of a well-formed request decode to it (R65, R70). -/
theorem decodeRequest_encode {i : Instr} (h : i.wf = true) : decodeRequest (encode i) = .ok i := by
  cases i with
  | decode frame =>
    have hlen := (wf_decode_iff frame).1 h
    have hbyte : frame.length = (BitVec.ofNat 8 frame.length).toNat := by
      rw [BitVec.toNat_ofNat]
      omega
    simp only [encode, decodeRequest, opcodeOf_decode]
    exact (decodeDecodeBody_ok_iff _ frame _).2 ⟨hbyte, rfl⟩
  | pinof g =>
    have hbyte : (BitVec.ofNat 8 g.val).toNat = g.val := by
      have := railIndex_lt g
      rw [BitVec.toNat_ofNat]
      omega
    simp only [encode, decodeRequest, opcodeOf_pinof]
    exact (decodePinofBody_ok_iff _ _).2 ⟨hbyte.trans_lt g.isLt, congrArg Instr.pinof (Fin.ext hbyte.symm)⟩

end Sys2Proof

namespace Sys2Proof.Machine

/-! ### Runs of requests -/

/-- A well-formed request presented as its bytes is taken and answered in one step. -/
theorem step_of_request_encode {s : State} {i : Instr} {rest : List HostInput} (hi : i.wf = true)
    (h : s.inputs = .request (encode i) :: rest) :
    step s = .next { s with inputs := rest, responses := s.responses ++ [responseTo s.pinMap i] } := by
  rw [step_of_request_ok h (decodeRequest_encode hi), exec_eq, takeInput_of_cons h]
  rfl

/-- A run over presented requests delivers the response that each is owed, in request order (R53). -/
theorem run_requests (requests : List Instr) (s : State) (hwf : ∀ i ∈ requests, i.wf = true)
    (h : s.inputs = requests.map (fun i => .request (encode i))) :
    run requests.length s =
      .next { s with inputs := [], responses := s.responses ++ requests.map (responseTo s.pinMap) } := by
  induction requests generalizing s with
  | nil =>
    rw [List.length_nil, run_zero, List.map_nil, List.append_nil, ← show s.inputs = [] from h]
  | cons i rest ih =>
    rw [List.forall_mem_cons] at hwf
    obtain ⟨hi, hrest⟩ := hwf
    rw [List.length_cons, run_of_next (step_of_request_encode hi h), ih _ hrest rfl, List.map_cons, List.append_assoc,
      List.singleton_append]

/-- Settles O46: the answers are the responses owed under the table, which no request writes. -/
theorem requestsAnsweredInOrder : Obligations.RequestsAnsweredInOrder := by
  unfold Obligations.RequestsAnsweredInOrder
  intro requests s hwf hinputs
  refine ⟨requests.map (responseTo s.pinMap), run_requests requests s hwf hinputs, List.length_map _, ?_⟩
  intro k i r hrequest hanswer t htable
  obtain rfl : responseTo s.pinMap i = r := by simpa [hrequest] using hanswer
  rw [← htable]
  exact exec_eq i t

/-! ### The frame of a sensor read -/

theorem transportRead_length (chip : Nat → Byte) (read : BusRead) :
    (transportRead chip read).length = read.length := by
  simp [transportRead]

/-- Frame byte i of a sensor read is chip register 0x80 + i (R42). -/
theorem getD_transportRead_sensorRead (chip : Nat → Byte) {i : Nat} (h : i < 24) :
    (transportRead chip sensorRead).getD i 0 = chip (0x80 + i) := by
  have hlen : i < (transportRead chip sensorRead).length := (transportRead_length chip sensorRead).symm ▸ h
  rw [List.getD_eq_getElem _ _ hlen]
  simp [transportRead, sensorRead]

/-- A field of a decoded sensor read is its two chip registers, high byte first (R51). -/
theorem fieldOf_sensorRead_toNat (chip : Nat → Byte) (g : RailIndex) (k : FieldKind) :
    (fieldOf (Vector.ofFn (readingAt (transportRead chip sensorRead))) g k).toNat =
      (chip (0x80 + fieldOffset g k)).toNat * 256 + (chip (0x80 + (fieldOffset g k + 1))).toNat := by
  have h := fieldOffset_lt g k
  rw [fieldOf_ofFn_readingAt, code_append_toNat, getD_transportRead_sensorRead chip (Nat.lt_of_succ_lt h),
    getD_transportRead_sensorRead chip h]

/-- Settles O48: a successful read presents an admitted frame of chip registers, a failed one leaves the block idle. -/
theorem sensorReadIsDecoded : Obligations.SensorReadIsDecoded := by
  unfold Obligations.SensorReadIsDecoded
  constructor
  · intro chip s h
    have hlen : (transportRead chip sensorRead).length = 24 := transportRead_length chip sensorRead
    refine ⟨Vector.ofFn (readingAt (transportRead chip sensorRead)), ?_, fun g => ⟨?_, ?_⟩⟩
    · rw [step_of_call h, takeInput_of_cons h]
      exact execDecode_of_length hlen _
    · rw [show 0x81 + 4 * g.val = 0x80 + (4 * g.val + 1) by omega]
      exact fieldOf_sensorRead_toNat chip g .voltage
    · rw [show 0x82 + 4 * g.val = 0x80 + (4 * g.val + 2) by omega,
        show 0x83 + 4 * g.val = 0x80 + (4 * g.val + 2 + 1) by omega]
      exact fieldOf_sensorRead_toNat chip g .current
  · intro e s h
    exact step_of_nil h

end Sys2Proof.Machine
end

section
/-! REQ byte strings: the decoder accepts exactly the encodings of well-formed requests, and a step refuses every other string
(spec 30_encoding.md R65, R67, R68, R69, R126). -/

namespace Sys2Proof

/-! ### The decoder, by the opcode byte -/

theorem decodeRequest_opcode_decode (body : List Byte) :
    decodeRequest (0x01 :: body) = decodeDecodeBody body := by
  simp only [decodeRequest, opcodeOf_decode]

theorem decodeRequest_opcode_pinof (body : List Byte) :
    decodeRequest (0x02 :: body) = decodePinofBody body := by
  simp only [decodeRequest, opcodeOf_pinof]

theorem decodeRequest_of_reserved {op : Byte} (h1 : op ≠ 0x01) (h2 : op ≠ 0x02) (body : List Byte) :
    decodeRequest (op :: body) = .error (.reservedOpcode op) := by
  simp only [decodeRequest, opcodeOf_eq, if_neg h1, if_neg h2]

theorem decodeDecodeBody_of_length {len : Byte} {frame : List Byte} (h : frame.length = len.toNat) :
    decodeDecodeBody (len :: frame) = .ok (.decode frame) :=
  (decodeDecodeBody_ok_iff len frame _).2 ⟨h, rfl⟩

theorem decodeDecodeBody_of_length_ne {len : Byte} {frame : List Byte} (h : frame.length ≠ len.toNat) :
    decodeDecodeBody (len :: frame) = .error (.byteCount (2 + len.toNat) (2 + frame.length)) :=
  if_neg h

theorem decodePinofBody_of_index_ge {g : Byte} (h : 6 ≤ g.toNat) :
    decodePinofBody [g] = .error (.indexOutOfRange g) := by
  simp only [decodePinofBody, railOfNumber_eq, dif_neg (Nat.not_lt.2 h)]

/-! ### What decodes is an encoding -/

theorem encode_of_decodeDecodeBody {body : List Byte} {i : Instr} (h : decodeDecodeBody body = .ok i) :
    i.wf = true ∧ encode i = 0x01 :: body := by
  cases body with
  | nil => cases h
  | cons len frame =>
    obtain ⟨hlen, rfl⟩ := (decodeDecodeBody_ok_iff len frame i).1 h
    have hlt := len.isLt
    refine ⟨(wf_decode_iff frame).2 (by omega), ?_⟩
    rw [encode, hlen, BitVec.ofNat_toNat, BitVec.setWidth_eq]

theorem encode_of_decodePinofBody {body : List Byte} {i : Instr} (h : decodePinofBody body = .ok i) :
    i.wf = true ∧ encode i = 0x02 :: body := by
  match body, h with
  | [g], h =>
    obtain ⟨hg, rfl⟩ := (decodePinofBody_ok_iff g i).1 h
    refine ⟨wf_pinof _, ?_⟩
    rw [encode, BitVec.ofNat_toNat, BitVec.setWidth_eq]

/-- Settles O25: by the opcode byte, each body fixes the operand that its bytes write. -/
theorem encodeOfDecode : Obligations.EncodeOfDecode := by
  unfold Obligations.EncodeOfDecode
  intro bytes i h
  cases bytes with
  | nil => cases h
  | cons op body =>
    by_cases h1 : op = 0x01
    · subst h1
      rw [decodeRequest_opcode_decode] at h
      exact encode_of_decodeDecodeBody h
    by_cases h2 : op = 0x02
    · subst h2
      rw [decodeRequest_opcode_pinof] at h
      exact encode_of_decodePinofBody h
    · rw [decodeRequest_of_reserved h1 h2] at h
      cases h

/-- Settles O24: each body of an encoding decodes to the operand that it carries. -/
theorem decodeOfEncode : Obligations.DecodeOfEncode := by
  unfold Obligations.DecodeOfEncode
  exact fun _ => decodeRequest_encode

/-- The byte strings that decode are the encodings of the well-formed requests (R65). -/
theorem exists_decodeRequest_eq_ok_iff (bytes : List Byte) :
    (∃ i, decodeRequest bytes = .ok i) ↔ ∃ i : Instr, i.wf = true ∧ encode i = bytes := by
  constructor
  · rintro ⟨i, h⟩
    exact ⟨i, encodeOfDecode bytes i h⟩
  · rintro ⟨i, hwf, rfl⟩
    exact ⟨i, decodeRequest_encode hwf⟩

/-- The two shapes of R65, one for each operation. -/
theorem exists_wf_encode_eq_iff (bytes : List Byte) :
    (∃ i : Instr, i.wf = true ∧ encode i = bytes) ↔
      (∃ frame : Frame, frame.length ≤ 255 ∧ bytes = 0x01 :: BitVec.ofNat 8 frame.length :: frame) ∨
        ∃ g : RailIndex, bytes = [0x02, BitVec.ofNat 8 g.val] := by
  constructor
  · rintro ⟨i, hwf, rfl⟩
    cases i with
    | decode frame => exact .inl ⟨frame, (wf_decode_iff frame).1 hwf, rfl⟩
    | pinof g => exact .inr ⟨g, rfl⟩
  · rintro (⟨frame, hlen, rfl⟩ | ⟨g, rfl⟩)
    · exact ⟨.decode frame, (wf_decode_iff frame).2 hlen, rfl⟩
    · exact ⟨.pinof g, wf_pinof g, rfl⟩

/-! ### The opcode map and words written out -/

/-- Settles O49, by the closed form of the opcode map. -/
theorem opcodeMap : Obligations.OpcodeMap := by
  unfold Obligations.OpcodeMap
  intro op
  rw [opcodeOf_eq]
  by_cases h1 : op = 0x01
  · simp [h1]
  by_cases h2 : op = 0x02
  · simp [h2]
  · rw [if_neg h1, if_neg h2]
    exact ⟨⟨nofun, fun h => absurd h h1⟩, ⟨nofun, fun h => absurd h h2⟩, fun _ => ⟨h1, h2⟩, fun _ => rfl⟩

/-- Settles O33: two lengths that fit, a rail index, an index above 5 and a reserved opcode. -/
theorem writtenOutWordsDecode : Obligations.WrittenOutWordsDecode := by
  unfold Obligations.WrittenOutWordsDecode
  refine ⟨?_, ?_, ?_, ?_, ?_⟩
  · exact (decodeRequest_opcode_decode _).trans (decodeDecodeBody_of_length rfl)
  · exact (decodeRequest_opcode_decode _).trans (decodeDecodeBody_of_length rfl)
  · exact decodeRequest_encode (wf_pinof 3)
  · exact (decodeRequest_opcode_pinof _).trans (decodePinofBody_of_index_ge (by decide))
  · exact decodeRequest_of_reserved (by decide) (by decide) _

end Sys2Proof

namespace Sys2Proof.Machine

/-! ### The step that is presented a byte string -/

theorem step_of_request_error {s : State} {bytes : List Byte} {why : Reject} {rest : List HostInput}
    (h : s.inputs = .request bytes :: rest) (hd : decodeRequest bytes = .error why) :
    step s = .refused (.rejected why) := by
  simp only [step, fetch_of_cons h, serve, hd]

/-- A byte string that decodes is answered with the response that its request is owed. -/
theorem step_of_request_decoded {s : State} {bytes : List Byte} {i : Instr} {rest : List HostInput}
    (h : s.inputs = .request bytes :: rest) (hd : decodeRequest bytes = .ok i) :
    step s = .next { s with inputs := rest, responses := s.responses ++ [responseTo s.pinMap i] } := by
  rw [step_of_request_ok h hd, exec_eq, takeInput_of_cons h]
  rfl

/-- The step refuses exactly the byte strings that the decoder rejects. -/
theorem step_refused_iff {s : State} {bytes : List Byte} {rest : List HostInput}
    (h : s.inputs = .request bytes :: rest) :
    (∃ why, step s = .refused (.rejected why)) ↔ ¬ ∃ i, decodeRequest bytes = .ok i := by
  cases hd : decodeRequest bytes with
  | ok i =>
    rw [step_of_request_decoded h hd]
    simp
  | error why =>
    rw [step_of_request_error h hd]
    simp

/-- Settles O26: the decoder names a reason for each of the six kinds. -/
theorem refusesReservedAndIllFramed : Obligations.RefusesReservedAndIllFramed := by
  unfold Obligations.RefusesReservedAndIllFramed
  intro s bytes rest h hkind
  have hreject : ∃ why, decodeRequest bytes = .error why := by
    obtain ⟨op, body, rfl, h1, h2⟩ | ⟨g, rfl, hg⟩ | rfl | rfl | ⟨len, frame, rfl, hlen⟩ | ⟨g, x, more, rfl⟩ := hkind
    · exact ⟨_, decodeRequest_of_reserved h1 h2 body⟩
    · exact ⟨_, (decodeRequest_opcode_pinof _).trans (decodePinofBody_of_index_ge hg)⟩
    · exact ⟨_, decodeRequest_opcode_decode []⟩
    · exact ⟨_, decodeRequest_opcode_pinof []⟩
    · exact ⟨_, (decodeRequest_opcode_decode _).trans (decodeDecodeBody_of_length_ne hlen)⟩
    · exact ⟨_, decodeRequest_opcode_pinof (g :: x :: more)⟩
  obtain ⟨why, hwhy⟩ := hreject
  exact ⟨why, step_of_request_error h hwhy⟩

/-- Settles O27: what is not refused decodes, and what decodes has one of the two shapes. -/
theorem refusedExactlyOutsideTheFormats : Obligations.RefusedExactlyOutsideTheFormats := by
  unfold Obligations.RefusedExactlyOutsideTheFormats
  intro s bytes rest h
  rw [step_refused_iff h]
  constructor
  · rw [exists_decodeRequest_eq_ok_iff, exists_wf_encode_eq_iff]
    push Not
    rfl
  · intro hanswered
    obtain ⟨i, hi⟩ := not_not.1 hanswered
    exact ⟨responseTo s.pinMap i, step_of_request_decoded h hi⟩

/-- Settles O28: the bytes are those of a well-formed request, and the response owed to it is WrongLength. -/
theorem otherLengthsAreLegalRequests : Obligations.OtherLengthsAreLegalRequests := by
  unfold Obligations.OtherLengthsAreLegalRequests
  intro frame s rest hle hne h
  rw [step_of_request_encode ((wf_decode_iff frame).2 hle) h, responseTo_decode_of_length_ne hne]

end Sys2Proof.Machine
end

section
/-! RSP byte strings: where each byte of a response stands, and the writer and the reader as inverses of each other
(spec 30_encoding.md R61, R66, R70). -/

namespace Sys2Proof.Machine

/-! ### The layout of a response -/

theorem recordBytes_length (g : RailIndex) (r : RailReading) : (recordBytes g r).length = 5 := rfl

/-- Pieces of one length stand at the multiples of it. -/
theorem getD_flatMap_of_length {α β : Type} {f : α → List β} {n : Nat} (hf : ∀ x, (f x).length = n) (xs : List α)
    {k j : Nat} (hk : k < xs.length) (hj : j < n) (d : β) :
    (xs.flatMap f).getD (n * k + j) d = (f xs[k]).getD j d := by
  induction xs generalizing k with
  | nil => simp at hk
  | cons x xs ih =>
    rw [List.flatMap_cons]
    cases k with
    | zero =>
      rw [Nat.mul_zero, Nat.zero_add, List.getD_append _ _ _ _ (hf x ▸ hj)]
      rfl
    | succ k =>
      rw [List.getD_append_right _ _ _ _ (by rw [hf, Nat.mul_succ]; omega), hf, List.getElem_cons_succ,
        ← ih (Nat.lt_of_succ_lt_succ hk)]
      congr 1
      rw [Nat.mul_succ]
      omega

theorem length_encodeResponse_snapshot (snap : Snapshot) : (encodeResponse (.snapshot snap)).length = 31 := by
  simp [encodeResponse, responseBody, recordBytes_length]

/-- Byte j of record g is response byte 1 + 5g + j (R66). -/
theorem getD_encodeResponse_snapshot (snap : Snapshot) (g : RailIndex) {j : Nat} (hj : j < 5) :
    (encodeResponse (.snapshot snap)).getD (j + 1 + 5 * g.val) 0 = (recordBytes g snap[g]).getD j 0 := by
  rw [show j + 1 + 5 * g.val = 5 * g.val + j + 1 by omega, encodeResponse, List.getD_cons_succ, responseBody,
    getD_flatMap_of_length (fun g => recordBytes_length g _) _ (by simp) hj, List.getElem_finRange]
  rfl

theorem status_eq_zero_or_one (r : Response) : status r = 0x00 ∨ status r = 0x01 := by
  cases r with
  | snapshot snap => exact .inl rfl
  | error e => cases e; exact .inr rfl
  | pin p => exact .inl rfl

theorem encodeResponse_error (e : DecodeError) : encodeResponse (.error e) = [0x01] := by
  cases e; rfl

theorem encodeResponse_pin (p : Pin) : encodeResponse (.pin p) = [0x00, BitVec.ofNat 8 p.number] := rfl

/-- Settles O29: each record is five bytes, so byte j of record g stands at 1 + 5g + j. -/
theorem responseLayout : Obligations.ResponseLayout := by
  unfold Obligations.ResponseLayout
  refine ⟨fun snap => ⟨length_encodeResponse_snapshot snap, rfl, fun g => ?_⟩, encodeResponse_error,
    encodeResponse_pin, status_eq_zero_or_one⟩
  have hbyte {j : Nat} (hj : j < 5) := getD_encodeResponse_snapshot snap g hj
  exact ⟨hbyte (j := 0) (by decide), hbyte (j := 1) (by decide), hbyte (j := 2) (by decide),
    hbyte (j := 3) (by decide), hbyte (j := 4) (by decide)⟩

theorem groupBytesOf_eq_getD {frame : Frame} (h : frame.length = 24) (g : RailIndex) :
    groupBytesOf frame g =
      [frame.getD (4 * g.val) 0, frame.getD (4 * g.val + 1) 0, frame.getD (4 * g.val + 2) 0,
        frame.getD (4 * g.val + 3) 0] := by
  have hg := groupOffset_le g
  rw [groupOffset_eq] at hg
  rw [groupBytesOf, groupOffset_eq, show Config.groupBytes = 2 + 2 from rfl, List.take_add, List.drop_drop,
    take_two_drop_eq_getD (by omega), take_two_drop_eq_getD (by omega)]
  rfl

/-- The record of group g is its index and the group's own four bytes (R61, R66). -/
theorem recordBytes_readingAt {frame : Frame} (h : frame.length = 24) (g : RailIndex) :
    recordBytes g (readingAt frame g) = BitVec.ofNat 8 g.val :: groupBytesOf frame g := by
  rw [groupBytesOf_eq_getD h]
  simp only [recordBytes, readingAt, codeBytes_append]
  rfl

/-- Settles O30: a field is written as the two bytes that it was assembled from. -/
theorem responseCarriesFrameBytes : Obligations.ResponseCarriesFrameBytes := by
  unfold Obligations.ResponseCarriesFrameBytes
  intro frame s h
  refine ⟨.snapshot (Vector.ofFn (readingAt frame)), execDecode_of_length h s, congrArg (0x00 :: ·) ?_⟩
  refine List.flatMap_congr fun g _ => ?_
  rw [Fin.getElem_fin, Vector.getElem_ofFn]
  exact recordBytes_readingAt h g

/-! ### Reading a response back -/

theorem snapshot_eq_readings (snap : Snapshot) :
    #v[snap[0], snap[1], snap[2], snap[3], snap[4], snap[5]] = snap := by
  apply Vector.ext
  intro i hi
  interval_cases i <;> rfl

theorem readRecords_responseBody {snap : Snapshot} (h : Snapshot.wf snap) :
    readRecords (responseBody (.snapshot snap)) = some snap := by
  have h0 := readRecord_recordBytes (r := snap[0]) (h 0)
  have h1 := readRecord_recordBytes (r := snap[1]) (h 1)
  have h2 := readRecord_recordBytes (r := snap[2]) (h 2)
  have h3 := readRecord_recordBytes (r := snap[3]) (h 3)
  have h4 := readRecord_recordBytes (r := snap[4]) (h 4)
  have h5 := readRecord_recordBytes (r := snap[5]) (h 5) []
  rw [List.append_nil] at h5
  simp only [responseBody_snapshot, readRecords, h0, h1, h2, h3, h4, h5, Option.bind_eq_bind, Option.bind_some,
    List.isEmpty_nil, if_true, snapshot_eq_readings]

theorem responseBody_of_readRecords {body : List Byte} {snap : Snapshot} (h : readRecords body = some snap) :
    responseBody (.snapshot snap) = body := by
  simp only [readRecords, Option.bind_eq_bind, Option.bind_eq_some_iff, Prod.exists, Option.ite_none_right_eq_some,
    Option.some.injEq, List.isEmpty_iff] at h
  obtain ⟨r0, b0, h0, r1, b1, h1, r2, b2, h2, r3, b3, h3, r4, b4, h4, r5, b5, h5, rfl, rfl⟩ := h
  rw [responseBody_snapshot, recordBytes_of_readRecord h0, recordBytes_of_readRecord h1, recordBytes_of_readRecord h2,
    recordBytes_of_readRecord h3, recordBytes_of_readRecord h4, recordBytes_of_readRecord h5, List.append_nil]
  rfl

/-- The operation that a response answers (R66). -/
def Response.opcode : Response → Opcode
  | .snapshot _ => .decode
  | .error _ => .decode
  | .pin _ => .pinof

theorem decodeResponse_encodeResponse {r : Response} (h : r.wf) :
    decodeResponse r.opcode (encodeResponse r) = some r := by
  cases r with
  | snapshot snap =>
    simp [encodeResponse, decodeResponse, Response.opcode, readBody, status, readRecords_responseBody h]
  | error e => cases e; rfl
  | pin p =>
    have hp := pin_number_range p
    have hbyte : (BitVec.ofNat 8 p.number).toNat = p.number := by
      rw [BitVec.toNat_ofNat]
      omega
    simp [encodeResponse_pin, decodeResponse, Response.opcode, readBody, statusOk, hbyte, pinOfNumber_number]

theorem responseLength_status (r : Response) :
    responseLength r.opcode (status r) = some (encodeResponse r).length := by
  cases r with
  | snapshot snap => rw [length_encodeResponse_snapshot]; rfl
  | error e => cases e; rfl
  | pin p => rfl

theorem opcode_responseTo (table : Config.PinMap) (i : Instr) :
    opcodeOf (opcodeByte i) = some (responseTo table i).opcode := by
  cases i with
  | decode frame =>
    rw [opcodeByte, opcodeOf_decode]
    by_cases h : frame.length = 24
    · rw [responseTo_decode_of_length h]; rfl
    · rw [responseTo_decode_of_length_ne h]; rfl
  | pinof g => exact opcodeOf_pinof

/-- Settles O31: the response owed to a request is sound and of the request's operation, and such a response is read back. -/
theorem responseReadsBack : Obligations.ResponseReadsBack := by
  unfold Obligations.ResponseReadsBack
  intro i s op hop
  obtain rfl : (responseTo s.pinMap i).opcode = op :=
    Option.some.inj ((opcode_responseTo s.pinMap i).symm.trans hop)
  exact ⟨responseTo s.pinMap i, exec_eq i s, decodeResponse_encodeResponse (responseTo_wf s.pinMap i),
    responseLength_status _⟩

theorem encodeResponse_of_readBody {op : Opcode} {st : Byte} {body : List Byte} {r : Response}
    (h : readBody op st body = some r) : encodeResponse r = st :: body := by
  cases op with
  | decode =>
    simp only [readBody] at h
    split at h
    · next hst =>
      obtain ⟨snap, hsnap, rfl⟩ := Option.map_eq_some_iff.1 h
      rw [encodeResponse, responseBody_of_readRecords hsnap, hst]
      rfl
    · split at h
      · next herror =>
        rw [Bool.and_eq_true, decide_eq_true_iff, List.isEmpty_iff] at herror
        obtain ⟨rfl, rfl⟩ := herror
        cases h
        rfl
      · cases h
  | pinof =>
    simp only [readBody] at h
    split at h
    · next n =>
      split at h
      · next hst =>
        obtain ⟨p, hp, rfl⟩ := Option.map_eq_some_iff.1 h
        rw [encodeResponse_pin, number_of_pinOfNumber hp, BitVec.ofNat_toNat, BitVec.setWidth_eq, hst]
        rfl
      · cases h
    · cases h

/-- Settles O32: a body that the reader accepts is the one written for what it read. -/
theorem responseBytesAreCanonical : Obligations.ResponseBytesAreCanonical := by
  unfold Obligations.ResponseBytesAreCanonical
  intro op bytes r h
  cases bytes with
  | nil => cases h
  | cons st body => exact encodeResponse_of_readBody h

end Sys2Proof.Machine
end

section
/-! The assembly text: a line's bytes, and the printed line of a request read back (spec 30_encoding.md R72, R73). -/

namespace Sys2Proof.Machine

/-! ### Lines -/

theorem assembleLine_of_wf {line : AsmLine} (h : (lineInstr line).wf = true) :
    assembleLine line = some (encode (lineInstr line)) := if_pos h

/-- Settles O34: a line of a well-formed request assembles to that request's encoding, which decodes to it. -/
theorem linesAssemble : Obligations.LinesAssemble := by
  unfold Obligations.LinesAssemble
  constructor
  · intro items hlen
    have hwf := (wf_decode_iff (items.flatMap itemBytes)).2 hlen
    exact ⟨_, assembleLine_of_wf (line := .decode items) hwf, rfl, decodeRequest_encode hwf⟩
  · intro g
    exact ⟨assembleLine_of_wf (line := .pinof g) (wf_pinof g), decodeRequest_encode (wf_pinof g)⟩

/-! ### Words and digits of a text -/

theorem dropComment_eq_self {text : List Char} (h : ';' ∉ text) : dropComment text = text := by
  refine List.takeWhile_eq_self_iff.2 fun c hc => ?_
  simpa using ne_of_mem_of_not_mem hc h

theorem dropResult_eq_self {text : List Char} (h : '=' ∉ text) : dropResult text = text := by
  induction text with
  | nil => rfl
  | cons c rest ih =>
    rw [List.mem_cons, not_or] at h
    obtain ⟨hc, hrest⟩ := h
    rw [dropResult, ih hrest]
    rintro _ rfl
    exact absurd rfl hc

theorem splitWords_append {xs : List Char} (h : ' ' ∉ xs) (word rest : List Char) :
    splitWords word (xs ++ rest) = splitWords (word ++ xs) rest := by
  induction xs generalizing word with
  | nil => rw [List.nil_append, List.append_nil]
  | cons c xs ih =>
    rw [List.mem_cons, not_or] at h
    obtain ⟨hc, hxs⟩ := h
    rw [List.cons_append, splitWords, if_neg (Ne.symm hc), ih hxs, List.append_assoc, List.singleton_append]

theorem splitWords_space {word : List Char} (h : word ≠ []) (rest : List Char) :
    splitWords word (' ' :: rest) = word :: splitWords [] rest := by
  rw [splitWords, if_pos rfl, if_neg (by simpa using h)]

theorem splitWords_nil {word : List Char} (h : word ≠ []) : splitWords word [] = [word] := by
  rw [splitWords, if_neg (by simpa using h)]

/-- A printed hexadecimal digit is read back as its number. -/
theorem hexDigit_hexChar {n : Nat} (h : n < 16) : hexDigit (hexChar n) = some n := by
  revert n
  decide

/-- A printed digit neither separates words nor begins a result or a comment. -/
theorem hexChar_ne_separator {n : Nat} (h : n < 16) : hexChar n ≠ ' ' ∧ hexChar n ≠ '=' ∧ hexChar n ≠ ';' := by
  revert n
  decide

/-! ### The printed line -/

/-- The two digits that `printByte` writes after the space. -/
def hexWord (b : Byte) : List Char := [hexChar (b.toNat / 16), hexChar (b.toNat % 16)]

theorem printByte_eq (b : Byte) : printByte b = ' ' :: hexWord b := rfl

theorem byte_digits_lt (b : Byte) : b.toNat / 16 < 16 ∧ b.toNat % 16 < 16 := by
  have := b.isLt
  omega

theorem not_mem_hexWord_separator (b : Byte) : ' ' ∉ hexWord b ∧ '=' ∉ hexWord b ∧ ';' ∉ hexWord b := by
  obtain ⟨hhigh, hlow⟩ := byte_digits_lt b
  obtain ⟨h1, h2, h3⟩ := hexChar_ne_separator hhigh
  obtain ⟨l1, l2, l3⟩ := hexChar_ne_separator hlow
  simp [hexWord, h1.symm, h2.symm, h3.symm, l1.symm, l2.symm, l3.symm]

/-- A printed byte is one item of a DECODE line (R72). -/
theorem parseItem_hexWord (b : Byte) : parseItem (hexWord b) = some { byte := b, count := 1 } := by
  obtain ⟨hhigh, hlow⟩ := byte_digits_lt b
  simp only [hexWord, parseItem, hexByte, hexDigit_hexChar hhigh, hexDigit_hexChar hlow, Option.map_some,
    Nat.div_add_mod, BitVec.ofNat_toNat, BitVec.setWidth_eq]

theorem parseItems_map_hexWord (frame : Frame) :
    parseItems (frame.map hexWord) = some (frame.map fun b => { byte := b, count := 1 }) := by
  induction frame with
  | nil => rfl
  | cons b frame ih => rw [List.map_cons, parseItems, parseItem_hexWord, ih, List.map_cons]

/-- Each printed byte is a word of its own. -/
theorem splitWords_flatMap_printByte {word : List Char} (h : word ≠ []) (frame : Frame) :
    splitWords word (frame.flatMap printByte) = word :: frame.map hexWord := by
  induction frame generalizing word with
  | nil => exact splitWords_nil h
  | cons b frame ih =>
    obtain ⟨hspace, -, -⟩ := not_mem_hexWord_separator b
    rw [List.flatMap_cons, printByte_eq, List.cons_append, splitWords_space h, splitWords_append hspace,
      List.nil_append, ih (word := hexWord b) (List.cons_ne_nil _ _), List.map_cons]

/-- A printed DECODE line holds neither a comment nor a result. -/
theorem not_mem_printRequest_decode (frame : Frame) :
    ';' ∉ printRequest (.decode frame) ∧ '=' ∉ printRequest (.decode frame) := by
  have hbyte (b : Byte) : ';' ∉ printByte b ∧ '=' ∉ printByte b := by
    obtain ⟨-, heq, hsemi⟩ := not_mem_hexWord_separator b
    simp [printByte_eq, heq, hsemi]
  simp [printRequest, decodeName, hbyte]

theorem parseWords_decodeName (args : List (List Char)) :
    parseWords (decodeName :: args) = (parseItems args).map .decode := by
  unfold parseWords
  exact if_pos rfl

/-- The printed DECODE line is read as its bytes, one item each. -/
theorem parseLine_printRequest_decode (frame : Frame) :
    parseLine (printRequest (.decode frame)) =
      some (.decode (frame.map fun b => { byte := b, count := 1 })) := by
  obtain ⟨hsemi, heq⟩ := not_mem_printRequest_decode frame
  rw [parseLine, dropComment_eq_self hsemi, dropResult_eq_self heq, printRequest, splitWords_append (by decide),
    List.nil_append, splitWords_flatMap_printByte (by decide), parseWords_decodeName, parseItems_map_hexWord,
    Option.map_some]

theorem parseLine_printRequest_pinof (g : RailIndex) :
    parseLine (printRequest (.pinof g)) = some (.pinof g) := by
  revert g
  decide

theorem flatMap_itemBytes_single (frame : Frame) :
    (frame.map fun b => ({ byte := b, count := 1 } : AsmItem)).flatMap itemBytes = frame := by
  simp [List.flatMap_map, itemBytes]

/-- The line that a request is printed as stands for that request. -/
theorem exists_parseLine_printRequest (i : Instr) :
    ∃ line, parseLine (printRequest i) = some line ∧ lineInstr line = i := by
  cases i with
  | decode frame =>
    exact ⟨_, parseLine_printRequest_decode frame, congrArg Instr.decode (flatMap_itemBytes_single frame)⟩
  | pinof g => exact ⟨_, parseLine_printRequest_pinof g, rfl⟩

/-- Settles O35: the printed line is parsed as a line of the same request, which assembles to its encoding. -/
theorem printedRequestAssembles : Obligations.PrintedRequestAssembles := by
  unfold Obligations.PrintedRequestAssembles
  intro i hwf
  obtain ⟨line, hparse, rfl⟩ := exists_parseLine_printRequest i
  rw [assemble, hparse, Option.bind_some, assembleLine_of_wf hwf]

end Sys2Proof.Machine
end

section
/-! The address map of the frame (spec 20_memory.md R47, R51). -/

namespace Sys2Proof.Machine

theorem pinLookup_pinMap_number (g : RailIndex) : (pinLookup Config.pinMap g).number = 6 - g.val := by
  revert g
  decide

/-- The row of an offset leads back to it: the rail is its quotient by 4, field and half its remainder. -/
theorem offsetOf_placeOf (i : Fin 24) : offsetOf (placeOf i) = i.val := by
  revert i
  decide

theorem fieldShift_eq_zero_or_two (k : FieldKind) : fieldShift k = 0 ∨ fieldShift k = 2 := by
  cases k <;> decide

theorem halfShift_le_one (half : FieldHalf) : halfShift half ≤ 1 := by
  cases half <;> decide

theorem fieldShift_injective : Function.Injective fieldShift
  | .voltage, .voltage, _ => rfl
  | .current, .current, _ => rfl

theorem halfShift_injective : Function.Injective halfShift
  | .high, .high, _ => rfl
  | .low, .low, _ => rfl

/-- Rail, field and half are the three digits of an offset, so no two places share one (R51). -/
theorem offsetOf_injective : Function.Injective offsetOf := by
  intro ⟨rail, kind, half⟩ ⟨rail', kind', half'⟩ h
  have hsum : 4 * rail.val + fieldShift kind + halfShift half = 4 * rail'.val + fieldShift kind' + halfShift half' := h
  have hkind := fieldShift_eq_zero_or_two kind
  have hkind' := fieldShift_eq_zero_or_two kind'
  have hhalf := halfShift_le_one half
  have hhalf' := halfShift_le_one half'
  obtain rfl : rail = rail' := Fin.ext (by omega)
  obtain rfl := fieldShift_injective (a₁ := kind) (a₂ := kind') (by omega)
  obtain rfl := halfShift_injective (a₁ := half) (a₂ := half') (by omega)
  rfl

/-- Settles O15, from the row of each offset and the uniqueness of its place. -/
theorem addressMapIsExact : Obligations.AddressMapIsExact := by
  unfold Obligations.AddressMapIsExact
  refine ⟨fun i => ⟨rfl, rfl, pinLookup_pinMap_number _, offsetOf_placeOf i⟩, fun p i h => ?_, fun g => ?_⟩
  · exact offsetOf_injective ((offsetOf_placeOf i).trans h.symm)
  · rw [fieldOffset_voltage, fieldOffset_current]
    omega

end Sys2Proof.Machine
end

section
/-! DECODE's answer: each byte of the frame stands in one half of one field, so the codes reported are those the frame carries, a
changed byte shows in its own field alone, and only the length can be an error (spec 40_decode.md R80 to R88). -/

namespace Sys2Proof.Machine

/-! ### The answer to a request -/

/-- The response added is the one owed: no other makes the same next state. -/
theorem exec_eq_next_iff (i : Instr) (s : State) (r : Response) :
    exec i s = .next { s with responses := s.responses ++ [r] } ↔ r = responseTo s.pinMap i := by
  constructor
  · intro h
    rw [exec_eq] at h
    injection h with hstate
    have hresponses : s.responses ++ [responseTo s.pinMap i] = s.responses ++ [r] := congrArg State.responses hstate
    exact (List.singleton_inj.1 (List.append_cancel_left hresponses)).symm
  · rintro rfl
    exact exec_eq i s

/-- DECODE's response does not read PIN_MAP (R103). -/
theorem responseTo_decode_table (frame : Frame) (table table' : Config.PinMap) :
    responseTo table (.decode frame) = responseTo table' (.decode frame) := rfl

/-- DECODE owes an error exactly to a frame of the wrong length (R81, R86). -/
theorem exists_error_eq_responseTo_decode_iff (frame : Frame) (table : Config.PinMap) :
    (∃ e, .error e = responseTo table (.decode frame)) ↔ frame.length ≠ 24 := by
  by_cases h : frame.length = 24
  · rw [responseTo_decode_of_length h]
    exact ⟨fun ⟨_, he⟩ => (nomatch he), fun hne => absurd h hne⟩
  · rw [responseTo_decode_of_length_ne h]
    exact ⟨fun _ => h, fun _ => ⟨.wrongLength, rfl⟩⟩

theorem getElem_ofFn_readingAt (frame : Frame) (g : RailIndex) :
    (Vector.ofFn (readingAt frame) : Snapshot)[g] = readingAt frame g := by
  rw [Fin.getElem_fin, Vector.getElem_ofFn]

/-! ### A field is its two halves -/

theorem code_eq_iff_halves (c c' : Code) : c = c' ↔ ∀ half, halfOf c half = halfOf c' half := by
  constructor
  · rintro rfl half
    rfl
  · intro h
    rw [← append_halves c, ← append_halves c', h .high, h .low]

/-- The byte of the frame that DECODE puts into a place is the one at the place's offset (R43, R51). -/
theorem halfOf_fieldOf_ofFn_readingAt (frame : Frame) (g : RailIndex) (k : FieldKind) (half : FieldHalf) :
    halfOf (fieldOf (Vector.ofFn (readingAt frame)) g k) half = frame.getD (offsetOf ⟨g, k, half⟩) 0 := by
  rw [fieldOf_ofFn_readingAt]
  cases half with
  | high => exact halfOf_high_append _ _
  | low => exact halfOf_low_append _ _

/-! ### The frame that carries given codes -/

theorem layoutFrame_length (field : RailIndex → FieldKind → Code) : (layoutFrame field).length = 24 := by
  simp [layoutFrame]

/-- FRAME24 puts each half of each code at its place's offset (R61). -/
theorem getD_layoutFrame (field : RailIndex → FieldKind → Code) (g : RailIndex) (k : FieldKind) (half : FieldHalf) :
    (layoutFrame field).getD (offsetOf ⟨g, k, half⟩) 0 = halfOf (field g k) half := by
  have hshift : fieldShift k + halfShift half < 4 := by cases k <;> cases half <;> decide
  rw [offsetOf, fieldOffset, groupOffset_eq, Nat.add_assoc, layoutFrame,
    getD_flatMap_of_length (n := 4) (fun _ => rfl) _ (by simp) hshift, List.getElem_finRange]
  cases k <;> cases half <;> rfl

/-- DECODE reads back the codes that a frame was laid out from. -/
theorem fieldOf_ofFn_readingAt_layoutFrame (field : RailIndex → FieldKind → Code) (g : RailIndex) (k : FieldKind) :
    fieldOf (Vector.ofFn (readingAt (layoutFrame field))) g k = field g k := by
  rw [code_eq_iff_halves]
  intro half
  rw [halfOf_fieldOf_ofFn_readingAt, getD_layoutFrame]

/-- Settles O4: each code is read back from the two halves laid out, and an error is owed to no other length. -/
theorem decodeReportsEveryCode : Obligations.DecodeReportsEveryCode := by
  unfold Obligations.DecodeReportsEveryCode
  constructor
  · intro field s
    refine ⟨Vector.ofFn (readingAt (layoutFrame field)), execDecode_of_length (layoutFrame_length field) s,
      fun g k => ⟨?_, fieldOf_ofFn_readingAt_layoutFrame field g k⟩⟩
    exact snapshot_ofFn_readingAt_wf _ g
  · intro frame s
    simp only [exec_eq_next_iff]
    exact exists_error_eq_responseTo_decode_iff frame s.pinMap

/-! ### One byte changed -/

/-- Two frames have the same field exactly when they agree on its two bytes. -/
theorem fieldOf_ofFn_readingAt_eq_iff (frame frame' : Frame) (g : RailIndex) (k : FieldKind) :
    fieldOf (Vector.ofFn (readingAt frame)) g k = fieldOf (Vector.ofFn (readingAt frame')) g k ↔
      ∀ half, frame.getD (offsetOf ⟨g, k, half⟩) 0 = frame'.getD (offsetOf ⟨g, k, half⟩) 0 := by
  simp only [code_eq_iff_halves, halfOf_fieldOf_ofFn_readingAt]

/-- Writing another byte at `i` changes what is read at `i` and nowhere else. -/
theorem getD_ne_getD_set_iff {frame : Frame} {i : Nat} {b : Byte} (hi : i < frame.length) (hb : frame.getD i 0 ≠ b)
    (a : Nat) : frame.getD a 0 ≠ (frame.set i b).getD a 0 ↔ a = i := by
  by_cases ha : a = i
  · subst ha
    simpa [hi] using hb
  · simp [ha, List.getElem?_set_ne (Ne.symm ha)]

/-- A field holds the byte at offset `i` exactly when the address map assigns `i` to it (R51). -/
theorem exists_offsetOf_eq_iff (i : Fin 24) (g : RailIndex) (k : FieldKind) :
    (∃ half, offsetOf ⟨g, k, half⟩ = i.val) ↔ g = (placeOf i).rail ∧ k = (placeOf i).kind := by
  constructor
  · rintro ⟨half, h⟩
    rw [← offsetOf_injective (h.trans (offsetOf_placeOf i).symm)]
    exact ⟨rfl, rfl⟩
  · rintro ⟨rfl, rfl⟩
    exact ⟨(placeOf i).half, offsetOf_placeOf i⟩

/-- Settles O8: a field differs where one of its halves does, a half where its byte does, and that is at offset i only. -/
theorem oneByteChangesOneField : Obligations.OneByteChangesOneField := by
  unfold Obligations.OneByteChangesOneField
  intro frame i b s h hb
  have hi : i.val < frame.length := h.symm ▸ i.isLt
  have h' : (frame.set i.val b).length = 24 := List.length_set.trans h
  refine ⟨Vector.ofFn (readingAt frame), Vector.ofFn (readingAt (frame.set i.val b)), execDecode_of_length h s,
    execDecode_of_length h' s, ?_, fun g k => ?_⟩
  · rw [halfOf_fieldOf_ofFn_readingAt, offsetOf_placeOf]
    simp [hi]
  · rw [Ne, fieldOf_ofFn_readingAt_eq_iff, not_forall, ← exists_offsetOf_eq_iff]
    exact exists_congr fun half => getD_ne_getD_set_iff hi hb _

/-! ### Each group on its own -/

/-- Settles O1: reading g is that of group g, each code assembled from two of its bytes. -/
theorem decodeReportsEachGroup : Obligations.DecodeReportsEachGroup := by
  unfold Obligations.DecodeReportsEachGroup
  intro frame s h
  refine ⟨Vector.ofFn (readingAt frame), execDecode_of_length h s, fun g => ?_⟩
  rw [getElem_ofFn_readingAt]
  exact ⟨rfl, code_append_toNat _ _, code_append_toNat _ _⟩

/-- Settles O3: the Snapshot is built from the frame alone, and each reading carries its own index. -/
theorem decodeOrderIgnoresPinMap : Obligations.DecodeOrderIgnoresPinMap := by
  unfold Obligations.DecodeOrderIgnoresPinMap
  intro frame s table h
  refine ⟨Vector.ofFn (readingAt frame), execDecode_of_length h s, execDecode_of_length h _, fun g => ?_⟩
  rw [getElem_ofFn_readingAt]
  exact ⟨rfl, rfl, rfl, rfl⟩

/-- Settles O6: the response owed to a DECODE is the same under every table. -/
theorem decodeIsAFunctionOfItsFrame : Obligations.DecodeIsAFunctionOfItsFrame := by
  unfold Obligations.DecodeIsAFunctionOfItsFrame
  intro frame
  refine ⟨responseTo Config.pinMap (.decode frame), fun s => (exec_eq_next_iff _ s _).2 ?_⟩
  exact responseTo_decode_table frame Config.pinMap s.pinMap

theorem readingAt_congr {frame frame' : Frame} {g : RailIndex}
    (h : ∀ j : Fin 4, frame.getD (4 * g.val + j.val) 0 = frame'.getD (4 * g.val + j.val) 0) :
    readingAt frame g = readingAt frame' g := by
  have h0 : frame.getD (4 * g.val) 0 = frame'.getD (4 * g.val) 0 := h 0
  have h1 : frame.getD (4 * g.val + 1) 0 = frame'.getD (4 * g.val + 1) 0 := h 1
  have h2 : frame.getD (4 * g.val + 2) 0 = frame'.getD (4 * g.val + 2) 0 := h 2
  have h3 : frame.getD (4 * g.val + 3) 0 = frame'.getD (4 * g.val + 3) 0 := h 3
  rw [readingAt, readingAt, h0, h1, h2, h3]

/-- Settles O7: a reading is a function of the four bytes of its group. -/
theorem readingDependsOnItsGroup : Obligations.ReadingDependsOnItsGroup := by
  unfold Obligations.ReadingDependsOnItsGroup
  intro frame frame' g s h h' hgroup
  refine ⟨Vector.ofFn (readingAt frame), Vector.ofFn (readingAt frame'), execDecode_of_length h s,
    execDecode_of_length h' s, ?_⟩
  rw [getElem_ofFn_readingAt, getElem_ofFn_readingAt, readingAt_congr hgroup]

/-- Bit 7 of a byte is set exactly in its upper half 128..255. -/
theorem getLsbD_seven_iff (b : Byte) : b.getLsbD 7 = true ↔ 128 ≤ b.toNat := by
  have hmsb : b.getLsbD 7 = decide (128 ≤ b.toNat) := BitVec.msb_eq_decide b
  rw [hmsb, decide_eq_true_iff]

/-- Settles O13: the high byte counts 256s, so it decides the comparison with 32768 alone. -/
theorem fieldIsUnsigned : Obligations.FieldIsUnsigned := by
  unfold Obligations.FieldIsUnsigned
  intro h l
  have hh := h.isLt
  have hl := l.isLt
  rw [assembleField_bigEndian_toNat, getLsbD_seven_iff]
  omega

/-- Settles O2: the length check fails, and WrongLength is the whole answer. -/
theorem decodeWrongLength : Obligations.DecodeWrongLength := by
  unfold Obligations.DecodeWrongLength
  intro frame s h
  exact execDecode_of_length_ne h s

end Sys2Proof.Machine
end

section
/-! PINOF and the pin table: PINOF answers the table's entry, and this revision's table is a bijection from the rails onto the
pins, with inverse 6 - p (spec 41_pinmap.md R100 to R105). -/

namespace Sys2Proof.Machine

/-! ### The table read forwards -/

/-- Settles O16: the response owed to PINOF is the table's entry. -/
theorem pinofAnswersTableEntry : Obligations.PinofAnswersTableEntry := by
  unfold Obligations.PinofAnswersTableEntry
  intro g s
  exact exec_eq (.pinof g) s

/-- Settles O17: entry g of this revision's table has number 6 - g, and PINOF answers the entry of the table held. -/
theorem pinofReversesRails : Obligations.PinofReversesRails := by
  unfold Obligations.PinofReversesRails
  intro g s htable
  refine ⟨pinLookup Config.pinMap g, rfl, pinLookup_pinMap_number g, ?_⟩
  rw [← htable]
  exact pinofAnswersTableEntry g s

/-! ### The table read backwards -/

/-- The inverse of R104, which gives both that a pin has a rail and that it has no other. -/
theorem pinLookup_pinMap_eq_iff (g : RailIndex) (p : Pin) :
    pinLookup Config.pinMap g = p ↔ g.val = 6 - p.number := by
  have hg := railIndex_lt g
  have hp := pin_number_range p
  have hnumber := pinLookup_pinMap_number g
  constructor
  · rintro rfl
    omega
  · intro h
    apply pin_ext
    omega

/-- The rail found backwards is the one whose pin is p, when the table gives no other rail that pin. -/
theorem railOfPin_eq_some {table : Config.PinMap} {p : Pin} {g : RailIndex} (hg : pinLookup table g = p)
    (hunique : ∀ g', pinLookup table g' = p → g' = g) : railOfPin table p = some g := by
  cases h : railOfPin table p with
  | none =>
    have hnone := List.find?_eq_none.1 h g (List.mem_finRange g)
    exact absurd (beq_iff_eq.2 hg) hnone
  | some g' =>
    have hfound := List.find?_some h
    rw [hunique g' (beq_iff_eq.1 hfound)]

/-- Settles O18: rail 6 - p is the one rail of pin p, and the numbers 6 - g turn round with the rails. -/
theorem pinMapIsABijection : Obligations.PinMapIsABijection := by
  unfold Obligations.PinMapIsABijection
  constructor
  · intro p
    obtain ⟨hmin, hmax⟩ := pin_number_range p
    have hlt : 6 - p.number < Config.railCount := Nat.sub_lt (by decide) hmin
    obtain ⟨g, hval⟩ := (exists_railIndex_val_eq_iff _).2 ((Config.railIndexRange_has_iff _).2 hlt)
    have hg : pinLookup Config.pinMap g = p := (pinLookup_pinMap_eq_iff g p).2 hval
    have hunique (g' : RailIndex) (h : pinLookup Config.pinMap g' = p) : g' = g :=
      Fin.ext (((pinLookup_pinMap_eq_iff g' p).1 h).trans hval.symm)
    exact ⟨hmin, hmax, g, railOfPin_eq_some hg hunique, hval, hg, hunique⟩
  · intro g
    have hg := railIndex_lt g
    have hrev : g.rev.val = 5 - g.val := (Fin.val_rev g).trans (Nat.add_sub_add_right 5 1 g.val)
    rw [pinLookup_pinMap_number, pinLookup_pinMap_number, hrev]
    omega

end Sys2Proof.Machine
end

section
/-! Errors and refusals: WrongLength is owed to no request but a DECODE of another length, and a refused run stays as its refusal
left it (spec 60_exceptions.md R110, R111, R126). -/

namespace Sys2Proof.Machine

/-! ### The one error -/

/-- An error is owed exactly to a DECODE of another length than 24 (R110, R111). -/
theorem exists_responseTo_eq_error_iff (table : Config.PinMap) (i : Instr) :
    (∃ e, responseTo table i = .error e) ↔ ∃ frame, i = .decode frame ∧ frame.length ≠ 24 := by
  cases i with
  | decode frame =>
    simp only [eq_comm (b := Response.error _), Instr.decode.injEq, exists_eq_left',
      exists_error_eq_responseTo_decode_iff]
  | pinof g => exact ⟨fun ⟨_, h⟩ => (nomatch h), fun ⟨_, h, _⟩ => (nomatch h)⟩

/-- Every response but an error is Ok (R66). -/
theorem status_of_not_error {r : Response} (h : ¬ ∃ e, r = .error e) : status r = 0x00 := by
  cases r with
  | snapshot snap => rfl
  | error e => exact absurd ⟨e, rfl⟩ h
  | pin p => rfl

/-- Settles O19: the one response is the one owed, and its bytes and status are those of an error or of an Ok. -/
theorem wrongLengthIsTheOnlyError : Obligations.WrongLengthIsTheOnlyError := by
  unfold Obligations.WrongLengthIsTheOnlyError
  intro i s
  refine ⟨responseTo s.pinMap i, exec_eq i s, exists_responseTo_eq_error_iff s.pinMap i, ?_, status_of_not_error⟩
  rintro ⟨e, he⟩
  rw [he, encodeResponse_error]

/-! ### The refusal mark -/

theorem transcript_of_next {s t : State} (h : step s = .next t) (k : Nat) :
    transcript (k + 1) s = transcript k t := by
  simp only [transcript, h]

theorem transcript_of_refused {s : State} {why : Refusal} (h : step s = .refused why) (k : Nat) :
    transcript (k + 1) s = { responses := s.responses, mark := some why } := by
  simp only [transcript, h]

/-- The mark of a transcript is that of the run's outcome (log 8). -/
theorem transcript_mark (k : Nat) (s : State) : (transcript k s).mark = refusalMark (run k s) := by
  induction k generalizing s with
  | zero => rfl
  | succ k ih =>
    cases h : step s with
    | next t => rw [transcript_of_next h, run_of_next h, ih]
    | fault f => exact absurd h (stepNeverFaults s f)
    | refused why => rw [transcript_of_refused h, run_of_refused h]; rfl

/-- A run is refused by its first step, or by the run that goes on from there. -/
theorem run_succ_eq_refused_iff {k : Nat} {s : State} {why : Refusal} :
    run (k + 1) s = .refused why ↔
      step s = .refused why ∨ ∃ t, step s = .next t ∧ run k t = .refused why := by
  rw [run_succ]
  cases step s <;> simp

/-- More steps after a refusal change neither the outcome nor the transcript (R126). -/
theorem run_add_and_transcript_add_of_refused {j : Nat} {s : State} {why : Refusal} (h : run j s = .refused why)
    (k : Nat) : run (j + k) s = .refused why ∧ transcript (j + k) s = transcript j s := by
  induction j generalizing s with
  | zero => cases h
  | succ j ih =>
    rw [Nat.add_right_comm]
    obtain hs | ⟨t, hs, ht⟩ := run_succ_eq_refused_iff.1 h
    · exact ⟨run_of_refused hs _, by rw [transcript_of_refused hs, transcript_of_refused hs]⟩
    · rw [run_of_next hs, transcript_of_next hs, transcript_of_next hs]
      exact ih ht

/-- Settles O47: a run is no longer changed after its refusal, and the transcript's mark is that of the refused outcome. -/
theorem refusalMarkStays : Obligations.RefusalMarkStays := by
  unfold Obligations.RefusalMarkStays
  intro j k s why h
  obtain ⟨hrun, htranscript⟩ := run_add_and_transcript_add_of_refused h k
  refine ⟨hrun, htranscript, ?_⟩
  rw [transcript_mark, h, refusalMark]

end Sys2Proof.Machine
end

section
/-! Reset and interruption: the interactions that ask for no response are taken off and nothing else happens (spec
70_reset_and_hazards.md R130, R131). -/

namespace Sys2Proof.Machine

/-- An interaction that is served in silence is taken off, and that is the whole step. -/
theorem step_of_silent {s : State} {x : HostInput} {rest : List HostInput} (h : s.inputs = x :: rest)
    (hx : ∀ t, serve x t = .silent t) : step s = .next { s with inputs := rest } := by
  simp only [step, fetch_of_cons h, hx]

/-- The reset event changes no field, so the two interactions that come to it are served in silence (log 6, log 7). -/
theorem serve_of_reset_or_interrupted {x : HostInput} (h : x = .reset ∨ ∃ bytes, x = .interrupted bytes)
    (t : State) : serve x t = .silent t := by
  obtain rfl | ⟨bytes, rfl⟩ := h
  · rfl
  · rfl

/-- Settles O39: either interaction is served in silence, and a run goes on from the state that its first step leaves. -/
theorem resetAnswersNothing : Obligations.ResetAnswersNothing := by
  unfold Obligations.ResetAnswersNothing
  intro s rest x hx h
  have hstep := step_of_silent h (serve_of_reset_or_interrupted hx)
  exact ⟨hstep, run_of_next hstep⟩

end Sys2Proof.Machine
end

section
/-! Reading outside the frame: FB holds offsets 0..len-1 only, so a field read names the first offset that it misses (spec
20_memory.md R40; log 11). -/

namespace Sys2Proof.Machine

theorem frameByte_of_lt {frame : Frame} {i : Nat} (h : i < frame.length) :
    frameByte frame i = .ok (frame.getD i 0) := by
  rw [frameByte_eq, if_pos h]

theorem frameByte_of_length_le {frame : Frame} {i : Nat} (h : frame.length ≤ i) :
    frameByte frame i = .error (.absentFrameByte i) := by
  rw [frameByte_eq, if_neg h.not_gt]

/-- A 2-byte read that starts outside FB faults at its first byte. -/
theorem memRead16_of_length_le {frame : Frame} {a : Nat} (h : frame.length ≤ a) :
    memRead16 frame a = .error (.absentFrameByte a) := by
  rw [memRead16, frameByte_of_length_le h]
  rfl

/-- A 2-byte read that starts at the last byte of FB faults at its second byte. -/
theorem memRead16_of_length_eq_succ {frame : Frame} {a : Nat} (h : frame.length = a + 1) :
    memRead16 frame a = .error (.absentFrameByte (a + 1)) := by
  have hfirst : a < frame.length := by omega
  rw [memRead16, frameByte_of_lt hfirst, frameByte_of_length_le h.le]
  rfl

/-- Settles O12: the read starts outside FB, or at the last byte of FB with only its second byte absent. -/
theorem readOutsideFrameFaults : Obligations.ReadOutsideFrameFaults := by
  unfold Obligations.ReadOutsideFrameFaults
  intro frame a h
  obtain hout | hlast := Nat.le_or_eq_of_le_succ h
  · rw [max_eq_left hout, memRead16_of_length_le hout]
  · rw [memRead16_of_length_eq_succ hlast, hlast, max_eq_right a.le_succ]

end Sys2Proof.Machine
end

section
/-! The two plainest steps: the one that serves an opcode-table word just presented, and the one with nothing presented (spec
30_encoding.md section 4; 60_exceptions.md section 2; log 4, log 5, log 19). -/

namespace Sys2Proof.Machine

/-- What was presented last is the interaction that is taken next. -/
@[simp] theorem takeInput_present (x : HostInput) (s : State) : takeInput (present x s) = s := rfl

theorem withFetchWord_inputs (s : State) (nbits w : Nat) :
    (s.withFetchWord nbits w).inputs = .request (tableBytes nbits w) :: s.inputs := rfl

theorem takeInput_withFetchWord (s : State) (nbits w : Nat) : takeInput (s.withFetchWord nbits w) = s :=
  takeInput_present _ s

/-- A table word reads as a request exactly when its bytes are that request. -/
theorem decodeTableWord_eq_some_iff {nbits w : Nat} {i : Instr} :
    decodeTableWord nbits w = some i ↔ decodeRequest (tableBytes nbits w) = .ok i := by
  rw [decodeTableWord]
  cases decodeRequest (tableBytes nbits w) with
  | ok j => simp [Except.toOption]
  | error why => simp [Except.toOption]

/-- The step of a state with a table word presented is the request of that word, run at the state itself. -/
theorem step_withFetchWord {nbits w : Nat} {i : Instr} (h : decodeTableWord nbits w = some i) (s : State) :
    step (s.withFetchWord nbits w) = exec i s := by
  rw [step_of_request_ok (withFetchWord_inputs s nbits w) (decodeTableWord_eq_some_iff.1 h), takeInput_withFetchWord]

/-- Settles O37: the step is the request at the state itself, and every request completes. -/
theorem fetchWordRunsNext : Obligations.FetchWordRunsNext := by
  unfold Obligations.FetchWordRunsNext
  intro s nbits w i h
  have hexec := exec_eq i s
  exact ⟨_, (step_withFetchWord h s).trans hexec, hexec⟩

/-- Settles O38: with nothing to take the fetch is idle. -/
theorem idleStepChangesNothing : Obligations.IdleStepChangesNothing := by
  unfold Obligations.IdleStepChangesNothing
  intro s h
  exact step_of_nil h

end Sys2Proof.Machine
end
